-- ==== Sys2Proof/Word.lean ====
section
/-! DEFINITION. The word types of the block (spec/00_scope.md R5, R8; spec/30_encoding.md R60). -/

namespace Sys2Proof

/-- An 8-bit byte: a bank register (`W_BANK`), a register identifier, a data byte (R5). -/
abbrev Byte := BitVec 8

/-- A 7-bit device address (`W_DEV`, R5, R28). -/
abbrev DevAddr := BitVec 7

/-- The 16-bit word of one Bus Writer transaction (`W_BUS`, R5, R41). -/
abbrev BusWord := BitVec 16

/-- A 40-bit command word: opcode in bits 39..32, payload in bits 31..0 (R60). -/
abbrev CmdWord := BitVec 40

end Sys2Proof
end

