-- ==== Sys2Proof/Config.lean ====
section
/-! DEFINITION. What an instance of the block fixes: its parameters (spec/00_scope.md R5, spec/10_state.md R28, R29)
and the constants the source makes normative. The record stands in State as the field `cfg` (log 1). -/

namespace Sys2Proof

/-- The six registers of the expander the block can write (R29, R72): a closed enumeration. -/
inductive Reg where
  | dataA | dataB | dirA | dirB | pullupA | pullupB
deriving DecidableEq, Repr

/-- `BAR_ROUND`: the rounding of the bar-graph scaler (R5, R105). -/
inductive BarRound where
  | floor | halfUp
deriving DecidableEq, Repr

/-- `IDX_HIGH_POLICY`: the treatment of `SETLED` indices 15 and 16 (R5, R99). -/
inductive IdxHighPolicy where
  | truncate | ignore | refuse
deriving DecidableEq, Repr

/-- The parameters of an instance (R5). -/
structure Config where
  /-- `DEV_ADDR` (R28) -/
  devAddr : DevAddr
  /-- `REG_DATA_A` (R29) -/
  regDataA : Byte
  /-- `REG_DATA_B` (R29) -/
  regDataB : Byte
  /-- `REG_DIR_A` (R29) -/
  regDirA : Byte
  /-- `REG_DIR_B` (R29) -/
  regDirB : Byte
  /-- `REG_PULLUP_A` (R29) -/
  regPullupA : Byte
  /-- `REG_PULLUP_B` (R29) -/
  regPullupB : Byte
  /-- `BAR_ROUND` (R105) -/
  barRound : BarRound
  /-- `IDX_HIGH_POLICY` (R99) -/
  idxHigh : IdxHighPolicy
deriving DecidableEq, Repr

/-- The default parameters of R5. PRESUMED (log 2): the address and the six identifier bytes are the spec's
"from general knowledge, not in source"; unsafe, and no statement rests on their values. `floor` and `truncate` are the
spec's decisions D7 and D9 (log 3, log 4). -/
def Config.default : Config where
  devAddr := 0x20#7
  regDataA := 0x12#8
  regDataB := 0x13#8
  regDirA := 0x00#8
  regDirB := 0x01#8
  regPullupA := 0x0C#8
  regPullupB := 0x0D#8
  barRound := .floor
  idxHigh := .truncate

/-- `N_LED`: the LEDs that `SETALL`, `BARGRAPH` and `PATTERN` drive (R5). -/
def nLed : Nat := 12

/-- `IDX_MAX`: the largest index `SETLED` accepts (R5); not derived from `nLed` (R6). -/
def idxMax : Nat := 16

/-- `LEDS_PER_BANK` (R5). -/
def ledsPerBank : Nat := 6

/-- `DIR_INIT`: what `INIT` writes to both direction registers (R5). -/
def dirInit : Byte := 0x00#8

/-- `PULLUP_INIT`: what `INIT` writes to both pull-up registers (R5). -/
def pullupInit : Byte := 0xFF#8

end Sys2Proof
end

