-- ==== Sys2Proof/Syntax.lean ====
section
/-! DEFINITION. The commands of the block: one constructor per row of spec/opcode_table.json (spec/30_encoding.md R61). -/

namespace Sys2Proof

/-- The operand `state`: ON or OFF (spec/00_scope.md R11). -/
inductive LedState where
  | on | off
deriving DecidableEq, Repr

/-- The operand `id`, and the name of a bank register (spec/10_state.md R20). -/
inductive BankId where
  | a | b
deriving DecidableEq, Repr

/-- The six commands (R61). `index`, `value` and `max` are natural numbers, as R68 says; WellFormed.lean bounds them by
their ports. `pixels` is a 12-bit vector whose bit p is the pixel at position p (R66). -/
inductive Instr where
  /-- `INIT` (spec/43_init.md R120) -/
  | init
  /-- `SETLED index, state` (spec/41_led_mapper.md R90) -/
  | setled (index : Nat) (state : LedState)
  /-- `SETALL state` (spec/42_bulk_ops.md R100) -/
  | setall (state : LedState)
  /-- `BARGRAPH value, max` (spec/42_bulk_ops.md R103) -/
  | bargraph (value max : Nat)
  /-- `PATTERN pixels` (spec/42_bulk_ops.md R111) -/
  | pattern (pixels : BitVec 12)
  /-- `GETBANK id` (spec/40_cache_ops.md R80) -/
  | getbank (id : BankId)
deriving DecidableEq, Repr

end Sys2Proof
end

