-- ==== Sys2Proof/WellFormed.lean ====
section
/-! DEFINITION. Well-formedness: operands that fit their ports (spec/30_encoding.md R68), and parameters whose six register
identifiers are pairwise distinct (spec/00_scope.md R5). -/

namespace Sys2Proof

/-- Every operand fits its port: `index` 8 bits, `value` and `max` 16 bits each (R68). -/
def Instr.wellFormed : Instr → Bool
  | .init => true
  | .setled index _ => decide (index < 256)
  | .setall _ => true
  | .bargraph value max => decide (value < 65536) && decide (max < 65536)
  | .pattern _ => true
  | .getbank _ => true

/-- The six register identifier bytes. -/
def Config.regBytes (c : Config) : List Byte :=
  [c.regDataA, c.regDataB, c.regDirA, c.regDirB, c.regPullupA, c.regPullupB]

/-- "The six register identifiers must be pairwise distinct" (R5). -/
def Config.wellFormed (c : Config) : Bool := decide c.regBytes.Nodup

end Sys2Proof
end

