-- ==== Sys2Proof/Decode.lean ====
section
/-! DEFINITION. Command words: the decoder, total on every 40-bit word and rejecting by name (spec/30_encoding.md R60 to R71,
R77), and the encoder beside it. -/

namespace Sys2Proof

/-- What a command word decodes to (R77): a command, or `Invalid` with the reserved opcode it carries (R69). -/
inductive Decoded where
  | instr (i : Instr)
  | invalid (op : Byte)
deriving DecidableEq, Repr

/-- `op = cmd[39:32]` (R60). -/
def cmdOp (w : CmdWord) : Byte := w.extractLsb' 32 8

/-- `pl = cmd[31:0]` (R60). -/
def cmdPayload (w : CmdWord) : BitVec 32 := w.extractLsb' 0 32

/-- The one-bit `state` field: 1 = ON, 0 = OFF (R63, R64). -/
def ledStateOfBit (b : Bool) : LedState := if b then .on else .off

/-- The one-bit `id` field: 0 = Bank A, 1 = Bank B (R67). -/
def bankIdOfBit (b : Bool) : BankId := if b then .b else .a

/-- The opcode map of R61 with the payload slices of R62 to R67; every other opcode is reserved (R69). -/
def decode (w : CmdWord) : Decoded :=
  let pl := cmdPayload w
  match (cmdOp w).toNat with
  | 1 => .instr .init
  | 2 => .instr (.setled (pl.extractLsb' 0 8).toNat (ledStateOfBit (pl.getLsbD 8)))
  | 3 => .instr (.setall (ledStateOfBit (pl.getLsbD 0)))
  | 4 => .instr (.bargraph (pl.extractLsb' 0 16).toNat (pl.extractLsb' 16 16).toNat)
  | 5 => .instr (.pattern (pl.extractLsb' 0 12))
  | 6 => .instr (.getbank (bankIdOfBit (pl.getLsbD 0)))
  | _ => .invalid (cmdOp w)

/-- The bit of a `state` field (R63, R64). -/
def bitOfLedState : LedState → BitVec 1
  | .on => 1#1
  | .off => 0#1

/-- The bit of an `id` field (R67). -/
def bitOfBankId : BankId → BitVec 1
  | .a => 0#1
  | .b => 1#1

/-- The opcode of a command (R61). -/
def opcode : Instr → Byte
  | .init => 0x01#8
  | .setled _ _ => 0x02#8
  | .setall _ => 0x03#8
  | .bargraph _ _ => 0x04#8
  | .pattern _ => 0x05#8
  | .getbank _ => 0x06#8

/-- The canonical payload of a command, ignored bits 0 (R62 to R67, R70). -/
def payload : Instr → BitVec 32
  | .init => 0#32
  | .setled index state => 0#23 ++ bitOfLedState state ++ BitVec.ofNat 8 index
  | .setall state => 0#31 ++ bitOfLedState state
  | .bargraph value max => BitVec.ofNat 16 max ++ BitVec.ofNat 16 value
  | .pattern pixels => 0#20 ++ pixels
  | .getbank id => 0#31 ++ bitOfBankId id

/-- The canonical command word of a command (R60, R70): the words of an instruction are this one word (R71). -/
def encode (i : Instr) : CmdWord := opcode i ++ payload i

/-- The payload bits a command with this opcode reads (R62 to R67); all of them for a reserved opcode. -/
def readMask (op : Byte) : BitVec 32 :=
  match op.toNat with
  | 1 => 0x00000000#32
  | 2 => 0x000001FF#32
  | 3 => 0x00000001#32
  | 4 => 0xFFFFFFFF#32
  | 5 => 0x00000FFF#32
  | 6 => 0x00000001#32
  | _ => 0xFFFFFFFF#32

/-- The word with its ignored payload bits cleared (R70). -/
def clearIgnored (w : CmdWord) : CmdWord :=
  cmdOp w ++ (cmdPayload w &&& readMask (cmdOp w))

/-- The command word the host's numbering gives: the low `nbits` bits of `w`, every bit above them 0. DESIGN CHOICE (log 17):
a command word is one 40-bit value on the port and is stored in no bytes, so no byte order arises (R60). -/
def tableWord (nbits w : Nat) : CmdWord := BitVec.ofNat 40 (w % 2 ^ nbits)

/-- The instruction the decoder reads from an opcode-table word. -/
def decodeTableWord (nbits w : Nat) : Option Instr :=
  match decode (tableWord nbits w) with
  | .instr i => some i
  | .invalid _ => none

end Sys2Proof
end

