-- ==== Sys2Proof/Machine/State.lean ====
section
/-! DEFINITION. The state of the machine (spec/10_state.md; INVENTORY.md, State), its stops, and the state after reset. -/

namespace Sys2Proof.Machine

/-- One call of the Bus Writer: device address, register identifier byte, data byte (R40, R57). -/
structure BusWrite where
  dev : DevAddr
  reg : Byte
  data : Byte
deriving DecidableEq, Repr

/-- A command that has been accepted and has not completed: the calls not transferred yet, oldest first, the head being the
one the block holds on the Bus Writer port, and the response it will give (R55, R73, R158; log 11). -/
structure InFlight where
  calls : List BusWrite
  response : Option Byte
deriving DecidableEq, Repr

/-- An event from the environment (spec/00_scope.md R13; log 5). -/
inductive Input where
  /-- a command word presented on the command port (R60), the Bus Writer accepting every call at once -/
  | command (w : CmdWord)
  /-- a command word during which the Bus Writer accepts `k` calls and then stops (`bw_ready` falls: R55, R158) -/
  | commandStalled (w : CmdWord) (k : Nat)
  /-- the Bus Writer accepts up to `n` further calls of the command in flight (R55) -/
  | busReady (n : Nat)
  /-- the reset input `rst`, between commands (R150) or during one (R153) -/
  | reset
deriving DecidableEq, Repr

/-- The device shadow: (address, byte) cells, addresses strictly rising; an unlisted address is `unwritten` (R32; log 8). -/
abbrev Memory := List Host.Cell

/-- Everything the spec gives the machine. -/
structure State where
  /-- the instance's parameters (R5, R28, R29), changed by no step (log 1) -/
  cfg : Config
  /-- the bank register `bankA` (R20) -/
  bankA : Byte
  /-- the bank register `bankB` (R20) -/
  bankB : Byte
  /-- ghost: the last byte sent to each device register since reset (R32) -/
  dev : Memory
  /-- the bus-write trace since reset, oldest first (R12, R57) -/
  trace : List BusWrite
  /-- the MODEL's ghost: the calls transferred before the last reset, oldest first (R37, R151; log 7) -/
  history : List BusWrite
  /-- the completions since reset, oldest first: `some v` for `GETBANK`, `none` otherwise (R73; log 6) -/
  responses : List (Option Byte)
  /-- the command in flight; `none` when the block is idle (R55, R152; log 11) -/
  inFlight : Option InFlight
  /-- the environment's events still to come (log 5) -/
  inputs : List Input
deriving DecidableEq, Repr

/-- The faults of the block: none, by R130 ("A model's step function for this block never returns a fault"; log 19). Safe. -/
inductive Fault where
deriving DecidableEq, Repr

/-- The refusals. -/
inductive Refusal where
  /-- raised by an arm of exec whose command has no meaning yet (none is left); safe -/
  | notModelled (mnemonic : String)
  /-- raised by `SETLED` and `BARGRAPH` on an operand wider than its port: such an input "cannot be presented to the block"
  (U10; log 16); no decoded word carries one; safe -/
  | operandTooWide
  /-- raised by `SETLED` of index 15 or 16 under `IDX_HIGH_POLICY = refuse` only, where "a model gives these commands no
  step" (R99; log 4); safe -/
  | highIndexRefused
deriving DecidableEq, Repr

/-- The machine right after reset (R36, R150, R151, R152) with the default parameters of R5 (log 2): both banks `0x00`, the
shadow unwritten, the trace empty, the block idle. The empty `responses`, `history` and `inputs` are DESIGN CHOICE
(log 5, log 6, log 7). -/
def State.reset : State where
  cfg := Config.default
  bankA := 0x00#8
  bankB := 0x00#8
  dev := []
  trace := []
  history := []
  responses := []
  inFlight := none
  inputs := []

end Sys2Proof.Machine
end

