-- ==== Sys2Proof/Machine/Memory.lean ====
section
/-! DEFINITION. The device register space as the block addresses it (spec/10_state.md R31, spec/20_memory.md R48): byte cells
selected by the pair (device address, register identifier). Only the ghost shadow is kept in it; no rule reads it (R32, R42). -/

namespace Sys2Proof.Machine

/-- The key of the register `reg` on the device `dev`: the pair (7 bits, 8 bits) packed into one number (R31; log 8). -/
def busAddr (dev : DevAddr) (reg : Byte) : Nat := dev.toNat * 256 + reg.toNat

/-- One past the largest key: 7 + 8 address bits (R31). -/
def busSpace : Nat := 32768

/-- The last byte sent to an address, or no value where the block has sent none: "unwritten" (R32). -/
def Memory.read : Memory → Nat → Option Byte
  | [], _ => none
  | (b, v) :: m, a => if a = b then some v else Memory.read m a

/-- `dev[reg] <- data` (R32, R40), keeping the addresses strictly rising. -/
def Memory.write : Memory → Nat → Byte → Memory
  | [], a, v => [(a, v)]
  | (b, u) :: m, a, v =>
    if a < b then (a, v) :: (b, u) :: m
    else if a = b then (a, v) :: m
    else (b, u) :: Memory.write m a v

/-- The canonical form: addresses strictly rising, each inside the device register space. -/
def Memory.wf (m : Memory) : Bool :=
  decide ((m.map Prod.fst).Pairwise (· < ·)) && m.all (fun c => decide (c.1 < busSpace))

/-- The key a call is addressed to. -/
def BusWrite.addr (c : BusWrite) : Nat := busAddr c.dev c.reg

/-- `word = {reg[7:0], data[7:0]}` (R41, R72). -/
def BusWrite.word (c : BusWrite) : BusWord := c.reg ++ c.data

/-- The bytes of a call in the order they are sent: register identifier, then data ("big-endian", R41). -/
def BusWrite.bytes (c : BusWrite) : List Byte :=
  [c.word.extractLsb' 8 8, c.word.extractLsb' 0 8]

/-- The shadow after one more call: the data byte of the most recent call to that register (R32). -/
def Memory.record (m : Memory) (c : BusWrite) : Memory := m.write c.addr c.data

end Sys2Proof.Machine
end

