-- ==== Sys2Proof/Machine/Operands.lean ====
section
/-! DEFINITION. What the operands mean: register identifiers, the index map and its gate, the bit mask, the scaler, the
pixels (spec/40_cache_ops.md R81, spec/41_led_mapper.md R91, R92, R99, spec/42_bulk_ops.md R104 to R106, R111). -/

namespace Sys2Proof.Machine

/-- The byte of a register identifier (R72). -/
def regByte (c : Config) : Reg → Byte
  | .dataA => c.regDataA
  | .dataB => c.regDataB
  | .dirA => c.regDirA
  | .dirB => c.regDirB
  | .pullupA => c.regPullupA
  | .pullupB => c.regPullupB

/-- `REG_DATA[X]` (R10). -/
def dataReg : BankId → Reg
  | .a => .dataA
  | .b => .dataB

/-- `trunc8(n) = n mod 256` (R9). -/
def trunc8 (n : Nat) : Byte := BitVec.ofNat 8 n

/-- `Mask(pos) = trunc8(1 << pos)` (R81): `0x00` for the positions 8 and 9, which no bank has. -/
def mask (pos : Nat) : Byte := trunc8 (1 <<< pos)

/-- The range gate: `index` must lie in [1,16] (R91). -/
def inGate (index : Nat) : Bool := decide (1 ≤ index) && decide (index ≤ idxMax)

/-- Indices 15 and 16 pass the gate and have no bit (R99). -/
def highIndex (index : Nat) : Bool := decide (15 ≤ index) && decide (index ≤ 16)

/-- Whether the LED Mapper acts on an index: the gate of R91, and for 15 and 16 the policy of R99. -/
def acceptsIndex (policy : IdxHighPolicy) (index : Nat) : Bool :=
  inGate index && (!highIndex index || decide (policy = .truncate))

/-- The bank of an accepted index (R92). -/
def ledBank (index : Nat) : BankId := if index ≤ ledsPerBank then .a else .b

/-- The bit position of an accepted index (R92). -/
def ledPos (index : Nat) : Nat := if index ≤ ledsPerBank then index - 1 else (index - ledsPerBank) - 1

/-- The guard of `BARGRAPH` (R104). -/
def barGuard (value max : Nat) : Bool := decide (value > max) || decide (max = 0)

/-- `Scale(value, max)` on natural numbers (R105, R106), for each setting of `BAR_ROUND`. It is reached only past the guard,
so the divisor is never 0. -/
def scale (r : BarRound) (value max : Nat) : Nat :=
  match r with
  | .floor => value * nLed / max
  | .halfUp => (value * (2 * nLed) + max) / (2 * max)

/-- The state the pixel at position `p` asks for (R111). -/
def pixelState (pixels : BitVec 12) (p : Nat) : LedState := if pixels.getLsbD p then .on else .off

end Sys2Proof.Machine
end

