-- ==== Sys2Proof/Machine/Ops.lean ====
section
/-! DEFINITION. The named operations over the bank registers, the Bus Writer port, the response port, and reset
(spec/00_scope.md R10, spec/20_memory.md R40, spec/40_cache_ops.md R82 to R84, spec/70_reset_and_hazards.md R150 to R153).
The block raises nothing and returns from nothing (spec/60_exceptions.md R130, R134, R135): there is no operation that takes
an exception, and reset is the one event that overrides a command (R133). -/

namespace Sys2Proof.Machine

/-- `c[X]`: read a bank register (R10, R25). -/
def readBank (s : State) : BankId → Byte
  | .a => s.bankA
  | .b => s.bankB

/-- `c[X] <- v`: write a bank register (R10). -/
def writeBank (s : State) (id : BankId) (v : Byte) : State :=
  match id with
  | .a => { s with bankA := v }
  | .b => { s with bankB := v }

/-- The call `(DEV_ADDR, reg, data)` (R40, R49): every call carries the one device address. -/
def callOf (c : Config) (reg : Reg) (data : Byte) : BusWrite :=
  { dev := c.devAddr, reg := regByte c reg, data := data }

/-- A call is transferred: it joins the trace and the ghost shadow records it (R40, R57). -/
def transfer (s : State) (c : BusWrite) : State :=
  { s with trace := s.trace ++ [c], dev := s.dev.record c }

/-- `BusWrite(reg, data)` (R40): no effect on the bank registers. -/
def busWrite (s : State) (reg : Reg) (data : Byte) : State := transfer s (callOf s.cfg reg data)

/-- The completion of a command, with the response of a `GETBANK` or none (R73). -/
def complete (s : State) (r : Option Byte) : State := { s with responses := s.responses ++ [r] }

/-- `rsp_data`: the bank byte for `GETBANK`, `0x00` for every other command (R73). -/
def rspData (r : Option Byte) : Byte := r.getD 0x00#8

/-- `TestBit(id, pos)` (R82). -/
def testBit (s : State) (id : BankId) (pos : Nat) : Bool := decide (readBank s id &&& mask pos ≠ 0#8)

/-- `SetBit(id, pos)` (R83). -/
def setBit (s : State) (id : BankId) (pos : Nat) : State := writeBank s id (readBank s id ||| mask pos)

/-- `ClearBit(id, pos) -> changed` (R84): exclusive-OR guarded by the test; the register is not written when the bit is
clear. -/
def clearBit (s : State) (id : BankId) (pos : Nat) : State × Bool :=
  if testBit s id pos then (writeBank s id (readBank s id ^^^ mask pos), true) else (s, false)

/-- `for i = first .. first + count - 1`, ascending (R10); the loop index is no state (R26). -/
def forRange (first count : Nat) (body : State → Nat → State) (s : State) : State :=
  (List.range' first count).foldl body s

/-- Reset (R36, R150 to R153): both banks `0x00`, the shadow unwritten, the trace empty, no command in flight, no completion,
no call. The parameters stay (R28); the calls already transferred move to `history`, because the device keeps what it was
sent (R37). That `inputs` stay and `responses` empty is DESIGN CHOICE (log 6, log 9). -/
def resetBlock (s : State) : State :=
  { State.reset with cfg := s.cfg, history := s.history ++ s.trace, inputs := s.inputs }

end Sys2Proof.Machine
end

