-- ==== Sys2Proof/Machine/Flags.lean ====
section
/-! DEFINITION. The block has no flags, condition codes or status bits (spec/10_state.md R27), so no flag is computed here.
What another design would report in a flag is derived: whether a command was applied (spec/92_eei_decisions.md D18) and the
lit LEDs that the call counts of spec/70_reset_and_hazards.md R167 speak of. -/

namespace Sys2Proof.Machine

/-- `popcount(v)` (R9). -/
def popcount {w : Nat} (v : BitVec w) : Nat := (List.range w).countP (fun i => v.getLsbD i)

/-- "Lit LEDs" (R167). -/
def litLeds (s : State) : Nat := popcount (s.bankA &&& 0x3F#8) + popcount (s.bankB &&& 0x3F#8)

/-- The calls transferred between two states of one run (R57). -/
def newCalls (s t : State) : List BusWrite := t.trace.drop s.trace.length

/-- "Applied": the command's write list is non-empty (D18). -/
def applied (s t : State) : Bool := !(newCalls s t).isEmpty

end Sys2Proof.Machine
end

