-- ==== Sys2Proof/Machine/Cache.lean ====
section
/-! DEFINITION. The Register State Cache command `GETBANK` (spec/40_cache_ops.md R80), and the reserved opcodes (spec/30_encoding.md R69). -/

namespace Sys2Proof.Machine

/-- `GETBANK id`: respond with the whole bank register and change nothing (R80). -/
def execGetbank (id : BankId) (s : State) : Host.Outcome State Fault Refusal :=
  .next (complete s (some (readBank s id)))

/-- `Invalid`: no state changed, no call, no data; it completes like any other command (R69, R138; log 14). -/
def execInvalid (s : State) : State := complete s none

end Sys2Proof.Machine
end

