-- ==== Sys2Proof/Machine/Mapper.lean ====
section
/-! DEFINITION. The LED Mapper (spec/41_led_mapper.md): the shared operation `setLed` that every state-changing command
performs, and the command `SETLED`. -/

namespace Sys2Proof.Machine

/-- The pseudocode of R90. An index outside the gate has no effect (R91), nor has 15 or 16 unless the policy is `truncate`
(R99). The cache is updated first and the call carries the updated byte (R56); ON always writes (R93), OFF only when the bit
was set (R94). -/
def setLed (s : State) (index : Nat) (state : LedState) : State :=
  if acceptsIndex s.cfg.idxHigh index then
    let bank := ledBank index
    let pos := ledPos index
    match state with
    | .on =>
      let t := setBit s bank pos
      busWrite t (dataReg bank) (readBank t bank)
    | .off =>
      match clearBit s bank pos with
      | (t, true) => busWrite t (dataReg bank) (readBank t bank)
      | (t, false) => t
  else s

/-- `SETLED index, state` (R90). An index wider than the port cannot be presented (U10; log 16); under the policy `refuse` the
indices 15 and 16 get no step (R99; log 4). -/
def execSetled (index : Nat) (state : LedState) (s : State) : Host.Outcome State Fault Refusal :=
  if index < 256 then
    if highIndex index && decide (s.cfg.idxHigh = .refuse) then .refused .highIndexRefused
    else .next (complete (setLed s index state) none)
  else .refused .operandTooWide

end Sys2Proof.Machine
end

