-- ==== Sys2Proof/Machine/Bulk.lean ====
section
/-! DEFINITION. The bulk operations `SETALL`, `BARGRAPH`, `PATTERN` (spec/42_bulk_ops.md): each is the sequence of `SETLED`s
its rule performs, in place and in order. -/

namespace Sys2Proof.Machine

/-- `SETALL(state)`: LEDs 1..12 in ascending order (R100). -/
def setAll (s : State) (state : LedState) : State :=
  forRange 1 nLed (fun t i => setLed t i state) s

/-- The bar of `n` LEDs: `SETLED(i, ON)` for i = 1..n (R103). -/
def lightBar (s : State) (n : Nat) : State := forRange 1 n (fun t i => setLed t i .on) s

/-- `BARGRAPH(value, max)` (R103): the guard before anything else (R104), then all off, then the bar. -/
def barGraph (s : State) (value max : Nat) : State :=
  if barGuard value max then setAll s .off
  else lightBar (setAll s .off) (scale s.cfg.barRound value max)

/-- `PATTERN(pixels)` (R111): position p governs LED p + 1, ascending, no all-off phase. -/
def showPattern (s : State) (pixels : BitVec 12) : State :=
  forRange 0 nLed (fun t p => setLed t (p + 1) (pixelState pixels p)) s

/-- `SETALL state` (R100). -/
def execSetall (state : LedState) (s : State) : Host.Outcome State Fault Refusal :=
  .next (complete (setAll s state) none)

/-- `BARGRAPH value, max` (R103). An operand wider than its port cannot be presented (U10; log 16). -/
def execBargraph (value max : Nat) (s : State) : Host.Outcome State Fault Refusal :=
  if value < 65536 ∧ max < 65536 then .next (complete (barGraph s value max) none)
  else .refused .operandTooWide

/-- `PATTERN pixels` (R111). -/
def execPattern (pixels : BitVec 12) (s : State) : Host.Outcome State Fault Refusal :=
  .next (complete (showPattern s pixels) none)

end Sys2Proof.Machine
end

