-- ==== Sys2Proof/Machine/Init.lean ====
section
/-! DEFINITION. The initialization sequence `INIT` (spec/43_init.md). -/

namespace Sys2Proof.Machine

/-- Steps 1 and 2 of R120, Bank A before Bank B in each (R121, the spec's decision D12; log 13). -/
def configureDevice (s : State) : State :=
  let s := busWrite s .dirA dirInit
  let s := busWrite s .dirB dirInit
  let s := busWrite s .pullupA pullupInit
  busWrite s .pullupB pullupInit

/-- `INIT` (R120): the four configuration writes, then `SETALL(OFF)`. -/
def execInit (s : State) : Host.Outcome State Fault Refusal :=
  .next (complete (setAll (configureDevice s) .off) none)

end Sys2Proof.Machine
end

