-- ==== Sys2Proof/Machine/Dispatch.lean ====
section
/-! DEFINITION. One arm per command: its meaning. -/

namespace Sys2Proof.Machine

def exec (i : Instr) (s : State) : Host.Outcome State Fault Refusal :=
  match i with
  | .init => Sys2Proof.Machine.execInit s
  | .setled index state => Sys2Proof.Machine.execSetled index state s
  | .setall state => Sys2Proof.Machine.execSetall state s
  | .bargraph value max => Sys2Proof.Machine.execBargraph value max s
  | .pattern pixels => Sys2Proof.Machine.execPattern pixels s
  | .getbank id => Sys2Proof.Machine.execGetbank id s

end Sys2Proof.Machine
end

