-- ==== Sys2Proof/Machine/Ports.lean ====
section
/-! DEFINITION. The ports: taking the next input, and the Bus Writer handshake of a command the bus stalls
(spec/20_memory.md R55, spec/30_encoding.md R60, R73, spec/70_reset_and_hazards.md R153, R158; log 5, log 10, log 11).
Nothing here counts cycles (R166). -/

namespace Sys2Proof.Machine

/-- `cmd_ready`: 1 only when the block is idle (R60). -/
def cmdReady (s : State) : Bool := s.inFlight.isNone

/-- The call the block holds on the Bus Writer port: `bw_valid` is 1 exactly when there is one (R55). -/
def heldCall (s : State) : Option BusWrite := s.inFlight.bind (fun f => f.calls.head?)

/-- The calls of the command in flight that are not transferred yet. -/
def pendingCalls (s : State) : List BusWrite :=
  match s.inFlight with
  | none => []
  | some f => f.calls

/-- Whether an input presents a command. -/
def Input.isCommand : Input → Bool
  | .command _ => true
  | .commandStalled _ _ => true
  | .busReady _ => false
  | .reset => false

/-- The first event of a list that presents no command, and the list without it, the commands before it left where they
are. -/
def takeEvent : List Input → Option (Input × List Input)
  | [] => none
  | x :: rest =>
    if x.isCommand then (takeEvent rest).map (fun p => (p.1, x :: p.2)) else some (x, rest)

/-- The input the block takes next and the state without it; none when there is nothing it can take. An idle block takes the
head. While a command is in flight every presented command waits for `cmd_ready` (R60), in its order, and holds back neither
`bw_ready` (R55) nor `rst`, which overrides everything (R133, R153): the first such event is taken from behind the waiting
commands. That one list holds both kinds of event, and this reading of their order while the block is busy, is DESIGN CHOICE
(log 5). -/
def nextInput (s : State) : Option (Input × State) :=
  if cmdReady s then
    match s.inputs with
    | [] => none
    | x :: rest => some (x, { s with inputs := rest })
  else (takeEvent s.inputs).map (fun p => (p.1, { s with inputs := p.2 }))

/-- The bank register that a call to a data register mirrors holds the byte of the call when the block presents it: the cache
is updated first, then the call is made (R56). -/
def mirror (s : State) (c : BusWrite) : State :=
  if c.reg = s.cfg.regDataA then { s with bankA := c.data }
  else if c.reg = s.cfg.regDataB then { s with bankB := c.data }
  else s

/-- One call presented and transferred. -/
def present (s : State) (c : BusWrite) : State := transfer (mirror s c) c

/-- The Bus Writer accepts up to `n` calls of the command in flight; when none is left the command completes, otherwise the
block holds the next call on the port (R55, R73). -/
def advance (n : Nat) (s : State) : State :=
  match s.inFlight with
  | none => s
  | some f =>
    let t := (f.calls.take n).foldl present s
    match f.calls.drop n with
    | [] => { t with responses := t.responses ++ [f.response], inFlight := none }
    | c :: cs => { mirror t c with inFlight := some { calls := c :: cs, response := f.response } }

/-- The command that takes `s` to `u`, accepted while the Bus Writer takes only its first `k` calls (R55, R158). -/
def stallAfter (k : Nat) (s u : State) : State :=
  advance k { s with inFlight := some { calls := newCalls s u,
                                        response := (u.responses.drop s.responses.length).headD none } }

/-- A command's outcome when the Bus Writer stalls after `k` of its calls. -/
def stalled (k : Nat) (s : State) (o : Host.Outcome State Fault Refusal) : Host.Outcome State Fault Refusal :=
  match o with
  | .next u => .next (stallAfter k s u)
  | .fault r => .fault r
  | .refused r => .refused r

/-- The state once the Bus Writer has accepted every call of the command in flight. -/
def settled (s : State) : State := advance (pendingCalls s).length s

end Sys2Proof.Machine
end

