-- ==== Sys2Proof/Machine/Step.lean ====
section
/-! DEFINITION. One step: the block takes one input and runs it to its end (spec/10_state.md R26, spec/20_memory.md R52). -/

namespace Sys2Proof.Machine

/-- An accepted command word runs: a command by its meaning, a reserved opcode as the no-op of R69. -/
def runWord (w : CmdWord) (s : State) : Host.Outcome State Fault Refusal :=
  match decode w with
  | .instr i => exec i s
  | .invalid _ => .next (execInvalid s)

/-- One step. With no input it can take (none left, or only commands while one is in flight), the block waits and nothing
changes (R55, R60, R152; log 5). -/
def step (s : State) : Host.Outcome State Fault Refusal :=
  match nextInput s with
  | none => .next s
  | some (.command w, t) => runWord w t
  | some (.commandStalled w k, t) => stalled k t (runWord w t)
  | some (.busReady n, t) => .next (advance n t)
  | some (.reset, t) => .next (resetBlock t)

/-- The state in which the very next step takes exactly this command word: the word is put before the other inputs and the
block is idle (log 17). -/
def State.withFetchWord (s : State) (nbits w : Nat) : State :=
  { s with inFlight := none, inputs := .command (tableWord nbits w) :: s.inputs }

end Sys2Proof.Machine
end

