-- ==== Sys2Proof/Safety.lean ====
section
/-! DEFINITION. What counts as a safe state, and the words the statements use: the closed forms of the calls a command
transfers, the state after a command, the LED view, and the invariant the block exists for (spec/10_state.md R33). -/

namespace Sys2Proof.Machine

/-- The call `(DEV_ADDR, REG_DATA[X], d)`: `A(d)` and `B(d)` of spec/42_bulk_ops.md. -/
def dataCall (c : Config) (id : BankId) (d : Byte) : BusWrite := callOf c (dataReg id) d

/-- The address of the data register of a bank. -/
def dataAddr (c : Config) (id : BankId) : Nat := busAddr c.devAddr (regByte c (dataReg id))

/-- `low(k) = (1 << k) - 1` (spec/42_bulk_ops.md, shorthand). -/
def low (k : Nat) : Byte := trunc8 (2 ^ k - 1)

/-- The six bits of a bank that drive LEDs. -/
def ledBits : Byte := 0x3F#8

/-- Bits 7 and 6 of a bank. -/
def highBits : Byte := 0xC0#8

/-- The shadow after a list of calls, oldest first. -/
def replayOn (m : Memory) (calls : List BusWrite) : Memory := calls.foldl Memory.record m

/-- The state after a command: the two banks, the calls it appended and its completion; every other field as before. -/
def afterCommand (s : State) (bankA bankB : Byte) (calls : List BusWrite) (r : Option Byte) : State :=
  { s with bankA := bankA, bankB := bankB, trace := s.trace ++ calls, dev := replayOn s.dev calls,
           responses := s.responses ++ [r] }

/-- The calls of `SETALL OFF` to one bank that holds `v` (R102). -/
def offCalls (c : Config) (id : BankId) (v : Byte) : List BusWrite :=
  (List.range 6).flatMap (fun p => if v.getLsbD p then [dataCall c id (v &&& ~~~ low (p + 1))] else [])

/-- The first `n` calls that light LEDs in ascending order in a bank that holds `v` (R101, R108). -/
def onCalls (c : Config) (id : BankId) (v : Byte) (n : Nat) : List BusWrite :=
  (List.range n).map (fun p => dataCall c id (v ||| low (p + 1)))

/-- The calls of `PATTERN` to one bank that holds `v` and is to show `want` (R112). -/
def patternCalls (c : Config) (id : BankId) (want v : Byte) : List BusWrite :=
  (List.range 6).flatMap (fun p =>
    if want.getLsbD p || v.getLsbD p then
      [dataCall c id ((want &&& low (p + 1)) ||| (v &&& ~~~ low (p + 1)))]
    else [])

/-- `pixels[5:0]`, zero-extended (R112). -/
def pixelsA (pixels : BitVec 12) : Byte := (pixels.extractLsb' 0 6).setWidth 8

/-- `pixels[11:6]`, zero-extended (R112). -/
def pixelsB (pixels : BitVec 12) : Byte := (pixels.extractLsb' 6 6).setWidth 8

/-- The four configuration calls of `INIT`, in order (R120, R121). -/
def configCalls (c : Config) : List BusWrite :=
  [callOf c .dirA 0x00#8, callOf c .dirB 0x00#8, callOf c .pullupA 0xFF#8, callOf c .pullupB 0xFF#8]

/-- Whether LED `k` is commanded ON (R21; 13 and 14 are the two reserved bits of Bank B, R98). -/
def ledLit (s : State) (k : Nat) : Bool := (readBank s (ledBank k)).getLsbD (ledPos k)

/-- The commands of a list, one after the other, stopping at the first stop. -/
def runAll : List Instr → State → Host.Outcome State Fault Refusal
  | [], s => .next s
  | i :: is, s =>
    match exec i s with
    | .next t => runAll is t
    | .fault r => .fault r
    | .refused r => .refused r

/-- Two states that agree on everything but the completions. -/
def sameButResponses (s t : State) : Prop := { s with responses := [] } = { t with responses := [] }

/-- The registers a command may send to: the addresses its stores can have (R29, R48, R95). -/
def storeRegs : Instr → List Reg
  | .init => [.dirA, .dirB, .pullupA, .pullupB, .dataA, .dataB]
  | .setled index _ => [dataReg (ledBank index)]
  | .setall _ => [.dataA, .dataB]
  | .bargraph _ _ => [.dataA, .dataB]
  | .pattern _ => [.dataA, .dataB]
  | .getbank _ => []

/-- Whether a call is one of those the block can make at all: to the one device, to one of the six registers, with the data
that register can be sent (R40, R48, R49, R72). -/
def legalCall (c : Config) (w : BusWrite) : Bool :=
  decide (w.dev = c.devAddr) &&
    (decide (w.reg = c.regDirA ∧ w.data = 0x00#8) || decide (w.reg = c.regDirB ∧ w.data = 0x00#8) ||
     decide (w.reg = c.regPullupA ∧ w.data = 0xFF#8) || decide (w.reg = c.regPullupB ∧ w.data = 0xFF#8) ||
     decide (w.reg = c.regDataA ∧ w.data &&& highBits = 0x00#8) || decide (w.reg = c.regDataB))

/-- The consistency of one bank (R33): either nothing has been sent to its data register and the bank holds its reset value,
or the last byte sent is the bank. -/
def Consistent (s : State) (id : BankId) : Prop :=
  (s.dev.read (dataAddr s.cfg id) = none ∧ readBank s id = 0x00#8) ∨
    s.dev.read (dataAddr s.cfg id) = some (readBank s id)

/-- The invariant of the block: distinct register identifiers (R5); `bankA[7:6]` is `0b00` (R23); the shadow is canonical and
is what the trace sent (R32); every call made or pending is one the block can make (R72); a block in flight holds a call; and,
once the command in flight has completed, block and shadow agree on both banks (R33). -/
structure Inv (s : State) : Prop where
  cfg_wf : s.cfg.wellFormed = true
  bankA_high : s.bankA &&& highBits = 0x00#8
  dev_wf : s.dev.wf = true
  dev_replay : s.dev = replayOn [] s.trace
  calls_legal : (s.history ++ s.trace ++ pendingCalls s).all (legalCall s.cfg) = true
  holds_call : ∀ f, s.inFlight = some f → f.calls ≠ []
  consistent : ∀ id, Consistent (settled s) id

/-- What a register of the device holds if every call is delivered and nothing else writes it (the premises (a), (b) of R34):
the last byte sent to it since power-on, and what it held at power-on, `initial`, where none was sent (R58; log 12). -/
def deviceHolds (initial : Byte) (address : Nat) (calls : List BusWrite) : Byte :=
  calls.foldl (fun d w => if w.addr = address then w.data else d) initial

end Sys2Proof.Machine
end

