-- ==== Sys2Proof/Certificates/Slice0/Obligations.lean ====
section
/-! DEFINITION. The statements for the provers. Each docstring names the rule of spec/ it formalises; where a rule of spec/
is itself marked as a decision or as derived, the docstring says so. -/

open Sys2Proof Sys2Proof.Machine

/-! ### Reset and the inputs -/

/-- R36: both banks `0x00`, every shadow entry unwritten, the trace empty; of the machine after reset, and of every state
that the reset input produces. -/
def Obligations.ResetLeavesBanksZeroShadowUnwrittenTraceEmpty : Prop :=
  (State.reset.bankA = 0x00#8 ∧ State.reset.bankB = 0x00#8 ∧ State.reset.trace = [] ∧
    ∀ r, State.reset.dev.read (busAddr State.reset.cfg.devAddr (regByte State.reset.cfg r)) = none) ∧
  ∀ s : State, (resetBlock s).bankA = 0x00#8 ∧ (resetBlock s).bankB = 0x00#8 ∧ (resetBlock s).trace = [] ∧
    ∀ r, (resetBlock s).dev.read (busAddr s.cfg.devAddr (regByte s.cfg r)) = none

/-- Reset overrides everything (spec/60_exceptions.md section 2, R133; spec/70_reset_and_hazards.md section 1, R150 to R153,
whose rendering as an input is the spec's decision D16): a reset input, taken by an idle block from the head of the inputs and
by a busy one from behind any number of waiting commands, zeroes both banks and leaves the block idle. The model's own choice:
the order in which a busy block takes inputs (log 5), the old trace moved to `history` (log 7), the inputs kept (log 9). -/
def Obligations.ResetInputZeroesTheBanksAndSendsNothing : Prop :=
  ∀ (s : State) (waiting rest : List Input), s.inputs = waiting ++ .reset :: rest →
    (∀ x ∈ waiting, x.isCommand = true) → (waiting = [] ∨ s.inFlight ≠ none) →
    ∃ t, step s = .next t ∧ t.bankA = 0x00#8 ∧ t.bankB = 0x00#8 ∧ t.inFlight = none ∧ t.cfg = s.cfg ∧
      t.inputs = waiting ++ rest ∧ t.trace = [] ∧ t.dev = [] ∧ t.history = s.history ++ s.trace

/-- Reset while a command is running (spec/70_reset_and_hazards.md section 1, R153, the spec's decision D16). With `k` calls of
the command transferred and at least one not, reset zeroes the banks, the calls not yet transferred are never issued, and no
completion is produced, whatever commands wait. The model's own choice: no completion is remembered across a reset (log 6), the
transferred calls move to `history` (log 7), the inputs are kept (log 9), a busy block takes the reset from behind waiting
commands (log 5), and the stall is an input that names `k` (log 10, log 11). -/
def Obligations.ResetDuringACommandAbandonsIt : Prop :=
  ∀ (s u : State) (w : CmdWord) (i : Instr) (k : Nat) (waiting rest : List Input),
    s.inFlight = none → s.inputs = .commandStalled w k :: (waiting ++ .reset :: rest) →
    (∀ x ∈ waiting, x.isCommand = true) → decode w = .instr i →
    exec i { s with inputs := waiting ++ .reset :: rest } = .next u → k < (newCalls s u).length →
    ∃ t v, step s = .next t ∧ step t = .next v ∧
      t.responses = s.responses ∧ t.trace = s.trace ++ (newCalls s u).take k ∧
      v.bankA = 0x00#8 ∧ v.bankB = 0x00#8 ∧ v.inFlight = none ∧ v.responses = [] ∧ v.trace = [] ∧ v.dev = [] ∧
      v.history = s.history ++ s.trace ++ (newCalls s u).take k ∧ v.inputs = waiting ++ rest

/-- R152 (the spec's decision D13): after reset the block is idle, and it accepts any of the six commands first, whatever
the parameters (indices 15 and 16 under `refuse` have no step: R99). -/
def Obligations.AnyCommandIsAcceptedFirstAfterReset : Prop :=
  (∀ s : State, cmdReady (resetBlock s) = true) ∧ cmdReady State.reset = true ∧
  ∀ (c : Config) (i : Instr), i.wellFormed = true → c.idxHigh ≠ .refuse →
    ∃ t, step { State.reset with cfg := c, inputs := [.command (encode i)] } = .next t ∧ t.inputs = [] ∧
      t.responses.length = 1

/-- The block waits when nothing is presented, and a command presented while one is in flight is not taken
(spec/30_encoding.md section 1, R60); such a waiting command does not hold back the Bus Writer, whose `bw_ready` is taken from
behind it (spec/20_memory.md section 5, R55). That an idle step changes nothing, and the order in which a busy block takes
inputs, are the model's choice (log 5, log 10, log 11). -/
def Obligations.BlockWaitsWithoutInputAndWhileBusy : Prop :=
  (∀ s : State, s.inputs = [] → step s = .next s) ∧
  (∀ s : State, s.inFlight ≠ none → (∀ x ∈ s.inputs, x.isCommand = true) → step s = .next s) ∧
  (∀ (s : State) (n : Nat) (waiting rest : List Input), s.inFlight ≠ none →
    s.inputs = waiting ++ .busReady n :: rest → (∀ x ∈ waiting, x.isCommand = true) →
    step s = .next (advance n { s with inputs := waiting ++ rest }))

/-! ### Steps and command words -/

/-- A step runs the decoded command: an idle block whose next input is a command word takes the word off and is `exec` of
the decoded command (spec/10_state.md R26: "a step consumes its head"). -/
def Obligations.StepRunsTheDecodedCommand : Prop :=
  ∀ (s : State) (w : CmdWord) (i : Instr) (rest : List Input),
    s.inFlight = none → s.inputs = .command w :: rest → decode w = .instr i →
    step s = exec i { s with inputs := rest }

/-- R69 (the spec's decision D10): a reserved opcode decodes to `Invalid`, changes no state, issues no call, returns no data
and completes. -/
def Obligations.ReservedOpcodesCompleteAndChangeNothing : Prop :=
  ∀ (s : State) (w : CmdWord) (rest : List Input),
    s.inFlight = none → s.inputs = .command w :: rest → (cmdOp w).toNat = 0 ∨ 7 ≤ (cmdOp w).toNat →
    decode w = .invalid (cmdOp w) ∧
      step s = .next { s with inputs := rest, responses := s.responses ++ [none] }

/-- Decode is total and exact: an assigned opcode gives a well-formed command of that opcode, every other opcode is
rejected by name (spec/30_encoding.md section 4, R77, which the spec derives from R61 to R70). -/
def Obligations.DecodeIsTotalAndExact : Prop :=
  ∀ w : CmdWord,
    (1 ≤ (cmdOp w).toNat ∧ (cmdOp w).toNat ≤ 6 ∧
      ∃ i, decode w = .instr i ∧ i.wellFormed = true ∧ opcode i = cmdOp w) ∨
    (((cmdOp w).toNat = 0 ∨ 7 ≤ (cmdOp w).toNat) ∧ decode w = .invalid (cmdOp w))

/-- Decode of encode is the command, for every well-formed command, every operand at every value its port carries. -/
def Obligations.DecodeOfEncodeIsTheCommand : Prop :=
  ∀ i : Instr, i.wellFormed = true → decode (encode i) = .instr i

/-- R70 (the spec's decision D11): ignored payload bits are not decoded; encoding what was decoded clears them; an encoder
emits 0 there. -/
def Obligations.EncodeOfDecodeClearsTheIgnoredBits : Prop :=
  (∀ (w : CmdWord) (i : Instr), decode w = .instr i → encode i = clearIgnored w) ∧
  (∀ w : CmdWord, decode (clearIgnored w) = decode w) ∧
  (∀ i : Instr, i.wellFormed = true → clearIgnored (encode i) = encode i)

/-- R62, R63, R64, R65, R67 (the spec's decision D4) in numbers: the operand slices of every word, and the canonical words
as the sums the rules write. The slice of `PATTERN` is here too; what its bits govern is in PatternShowsItsPixels. -/
def Obligations.OperandSlicesAndCanonicalWordsInNumbers : Prop :=
  (∀ w : CmdWord, (cmdOp w).toNat = 1 → decode w = .instr .init) ∧
  (∀ w : CmdWord, (cmdOp w).toNat = 2 →
    decode w = .instr (.setled (w.toNat % 256) (if w.toNat / 256 % 2 = 1 then .on else .off))) ∧
  (∀ w : CmdWord, (cmdOp w).toNat = 3 → decode w = .instr (.setall (if w.toNat % 2 = 1 then .on else .off))) ∧
  (∀ w : CmdWord, (cmdOp w).toNat = 4 →
    decode w = .instr (.bargraph (w.toNat % 65536) (w.toNat / 65536 % 65536))) ∧
  (∀ w : CmdWord, (cmdOp w).toNat = 5 → decode w = .instr (.pattern (BitVec.ofNat 12 (w.toNat % 4096)))) ∧
  (∀ w : CmdWord, (cmdOp w).toNat = 6 → decode w = .instr (.getbank (if w.toNat % 2 = 1 then .b else .a))) ∧
  (encode .init).toNat = 0x0100000000 ∧
  (∀ i, i < 256 → (encode (.setled i .on)).toNat = 0x0200000100 + i ∧ (encode (.setled i .off)).toNat = 0x0200000000 + i) ∧
  (encode (.setall .on)).toNat = 0x0300000001 ∧ (encode (.setall .off)).toNat = 0x0300000000 ∧
  (∀ v m, v < 65536 → m < 65536 → (encode (.bargraph v m)).toNat = 0x0400000000 + m * 65536 + v) ∧
  (∀ p, (encode (.pattern p)).toNat = 0x0500000000 + p.toNat) ∧
  (encode (.getbank .a)).toNat = 0x0600000000 ∧ (encode (.getbank .b)).toNat = 0x0600000001

/-- Words written out from the encodings of spec/30_encoding.md, one or more a command, and what they decode to
(spec/95_test_vectors.md section 2.1). -/
def Obligations.WordsOfTheSpecDecodeAsWritten : Prop :=
  decode 0x01DEADBEEF#40 = .instr .init ∧
  decode 0x0200000103#40 = .instr (.setled 3 .on) ∧
  decode 0x02FFFFFE03#40 = .instr (.setled 3 .off) ∧
  decode 0x0300000002#40 = .instr (.setall .off) ∧
  decode 0x0403FF0200#40 = .instr (.bargraph 512 1023) ∧
  decode 0x0500000555#40 = .instr (.pattern 0x555#12) ∧
  decode 0x0600000001#40 = .instr (.getbank .b) ∧
  decode 0x0000000000#40 = .invalid 0x00#8 ∧
  decode 0x0700000000#40 = .invalid 0x07#8

/-! ### GETBANK and the micro-operations -/

/-- R80: `GETBANK id` returns the current 8-bit value of one bank register and changes nothing. -/
def Obligations.GetbankRespondsWithTheBankAndChangesNothing : Prop :=
  ∀ s : State,
    exec (.getbank .a) s = .next { s with responses := s.responses ++ [some s.bankA] } ∧
    exec (.getbank .b) s = .next { s with responses := s.responses ++ [some s.bankB] }

/-- R81 (its positions 8 and 9 are the spec's decision D9): the mask of each position, and that positions 8 and 9 reach it
under `truncate` only. -/
def Obligations.MaskIsTheTruncatedPowerOfTwo : Prop :=
  (∀ pos, pos < 8 → (mask pos).toNat = 2 ^ pos) ∧ mask 8 = 0x00#8 ∧ mask 9 = 0x00#8 ∧
  (∀ p i, acceptsIndex p i = true → ledPos i ≤ 9) ∧
  (∀ p i, acceptsIndex p i = true → p ≠ .truncate → ledPos i ≤ 7)

/-- R83: `SetBit` is OR with the mask, in that bank only; it sets its bit, keeps every other, and is idempotent. -/
def Obligations.SetBitIsOrWithTheMask : Prop :=
  ∀ (s : State) (pos : Nat),
    setBit s .a pos = { s with bankA := s.bankA ||| mask pos } ∧
    setBit s .b pos = { s with bankB := s.bankB ||| mask pos } ∧
    ∀ id, setBit (setBit s id pos) id pos = setBit s id pos ∧
      ∀ q, q < 8 → (readBank (setBit s id pos) id).getLsbD q = (decide (q = pos) || (readBank s id).getLsbD q)

/-- R82: `TestBit` is the AND-test; with a mask of 0 it is always false. R84: `ClearBit` is exclusive-OR guarded by the AND-test; clearing a clear bit is a no-op and reports `false`; so a
second `ClearBit` changes nothing. -/
def Obligations.ClearBitIsGuardedExclusiveOrAndNeverToggles : Prop :=
  ∀ (s : State) (id : BankId) (pos : Nat),
    (testBit s id pos = true ↔ readBank s id &&& mask pos ≠ 0#8) ∧ (mask pos = 0x00#8 → testBit s id pos = false) ∧
    (readBank s id &&& mask pos ≠ 0#8 →
      clearBit s id pos = (writeBank s id (readBank s id ^^^ mask pos), true)) ∧
    (readBank s id &&& mask pos = 0#8 → clearBit s id pos = (s, false)) ∧
    clearBit (clearBit s id pos).1 id pos = ((clearBit s id pos).1, false)

/-- The register after `ClearBit` is the old one AND the complement of the mask, whether or not the bit was set, and `changed`
tells whether it was (spec/40_cache_ops.md section 5, R85, which the spec derives). -/
def Obligations.ClearBitEqualsAndWithTheComplement : Prop :=
  ∀ (s : State) (id : BankId) (pos : Nat),
    (clearBit s id pos).1 = writeBank s id (readBank s id &&& ~~~ mask pos) ∧
    (clearBit s id pos).2 = decide (readBank s id &&& mask pos ≠ 0#8)

/-- R40, R41: one `BusWrite` appends exactly the triple, records it in the shadow and leaves the banks; its word has the
register identifier in the high byte and is sent high byte first. -/
def Obligations.BusWriteAppendsOneTripleHighByteTheRegister : Prop :=
  ∀ (s : State) (r : Reg) (d : Byte),
    busWrite s r d =
      { s with trace := s.trace ++ [⟨s.cfg.devAddr, regByte s.cfg r, d⟩],
               dev := s.dev.write (busAddr s.cfg.devAddr (regByte s.cfg r)) d } ∧
    (callOf s.cfg r d).word.toNat = (regByte s.cfg r).toNat * 256 + d.toNat ∧
    (callOf s.cfg r d).bytes = [regByte s.cfg r, d]

/-! ### SETLED -/

/-- R91: the range gate is [1,16]; an index outside it changes no register, issues no call and completes. -/
def Obligations.SetledOutsideTheGateDoesNothing : Prop :=
  (∀ i, inGate i = true ↔ 1 ≤ i ∧ i ≤ 16) ∧
  ∀ (s : State) (i : Nat) (st : LedState), i = 0 ∨ (17 ≤ i ∧ i < 256) →
    exec (.setled i st) s = .next { s with responses := s.responses ++ [none] }

/-- R92: the mapping of the accepted indices to (bank, bit position). -/
def Obligations.IndexMapsToBankAndPosition : Prop :=
  ∀ i, 1 ≤ i → i ≤ 16 →
    (i ≤ 6 → ledBank i = .a ∧ ledPos i = i - 1 ∧ ledPos i ≤ 5) ∧
    (6 < i → ledBank i = .b ∧ ledPos i = i - 7 ∧ ledPos i ≤ 9)

/-- R93: `SETLED i, ON` sets the bit and always appends exactly one call with the bank's full updated byte, even if the bit
was set. Indices 15 and 16 are in it under `truncate` (R99); their mask is 0. -/
def Obligations.SetledOnAlwaysSendsTheUpdatedByte : Prop :=
  ∀ (s : State) (i : Nat),
    (1 ≤ i → i ≤ 6 →
      exec (.setled i .on) s =
        .next (afterCommand s (s.bankA ||| 1#8 <<< (i - 1)) s.bankB
          [⟨s.cfg.devAddr, s.cfg.regDataA, s.bankA ||| 1#8 <<< (i - 1)⟩] none)) ∧
    (7 ≤ i → (i ≤ 14 ∨ (i ≤ 16 ∧ s.cfg.idxHigh = .truncate)) →
      exec (.setled i .on) s =
        .next (afterCommand s s.bankA (s.bankB ||| 1#8 <<< (i - 7))
          [⟨s.cfg.devAddr, s.cfg.regDataB, s.bankB ||| 1#8 <<< (i - 7)⟩] none))

/-- R94: `SETLED i, OFF` sends the byte with the bit cleared iff the bit was set; otherwise nothing is written or sent. -/
def Obligations.SetledOffSendsOnlyWhenTheBitWasSet : Prop :=
  ∀ (s : State) (i : Nat),
    (1 ≤ i → i ≤ 6 →
      exec (.setled i .off) s =
        .next (if s.bankA &&& 1#8 <<< (i - 1) ≠ 0#8 then
            afterCommand s (s.bankA ^^^ 1#8 <<< (i - 1)) s.bankB
              [⟨s.cfg.devAddr, s.cfg.regDataA, s.bankA ^^^ 1#8 <<< (i - 1)⟩] none
          else { s with responses := s.responses ++ [none] })) ∧
    (7 ≤ i → (i ≤ 14 ∨ (i ≤ 16 ∧ s.cfg.idxHigh = .truncate)) →
      exec (.setled i .off) s =
        .next (if s.bankB &&& 1#8 <<< (i - 7) ≠ 0#8 then
            afterCommand s s.bankA (s.bankB ^^^ 1#8 <<< (i - 7))
              [⟨s.cfg.devAddr, s.cfg.regDataB, s.bankB ^^^ 1#8 <<< (i - 7)⟩] none
          else { s with responses := s.responses ++ [none] }))

/-- R95: at most one call, to the data register of the index's own bank, with the count of the table; the other bank, every
other address of the shadow and every other field are unchanged. -/
def Obligations.SetledTouchesOneBankWithAtMostOneCall : Prop :=
  ∀ (s t : State) (i : Nat) (st : LedState), exec (.setled i st) s = .next t →
    (∃ calls : List BusWrite, t.trace = s.trace ++ calls ∧
      calls.length = (if acceptsIndex s.cfg.idxHigh i = true then
        (match st with
          | .on => 1
          | .off => if readBank s (ledBank i) &&& mask (ledPos i) ≠ 0#8 then 1 else 0) else 0) ∧
      ∀ c ∈ calls, c = ⟨s.cfg.devAddr, regByte s.cfg (dataReg (ledBank i)), readBank t (ledBank i)⟩) ∧
    (i ≤ 6 → t.bankB = s.bankB) ∧ (6 < i → t.bankA = s.bankA) ∧
    (∀ a, a ≠ busAddr s.cfg.devAddr (regByte s.cfg (dataReg (ledBank i))) → t.dev.read a = s.dev.read a) ∧
    t.cfg = s.cfg ∧ t.history = s.history ∧ t.inputs = s.inputs ∧ t.inFlight = s.inFlight ∧
    t.responses = s.responses ++ [none]

/-- R96: after `SETLED index, state` the owning bank, as `GETBANK` shows it, has the bit matching `state`; every other bit of
it and the whole other bank are unchanged; for 1..12 and for 13 and 14. -/
def Obligations.SetledShowsItsStateInItsOwnBitOnly : Prop :=
  ∀ (s : State) (i : Nat) (st : LedState), 1 ≤ i → i ≤ 14 →
    ∃ t v, exec (.setled i st) s = .next t ∧
      exec (.getbank (ledBank i)) t = .next { t with responses := t.responses ++ [some v] } ∧
      v.getLsbD (ledPos i) = decide (st = .on) ∧
      (∀ q, q < 8 → q ≠ ledPos i → v.getLsbD q = (readBank s (ledBank i)).getLsbD q) ∧
      (i ≤ 6 → t.bankB = s.bankB) ∧ (7 ≤ i → t.bankA = s.bankA)

/-- R97: OFF twice makes exactly one call (none if the bit was clear), ON twice makes two identical calls, and in both cases
the second leaves the banks as the first did. -/
def Obligations.OffTwiceSendsOnceOnTwiceSendsTwice : Prop :=
  ∀ (s : State) (i : Nat), 1 ≤ i → i ≤ 14 →
    (∃ t u, exec (.setled i .off) s = .next t ∧ exec (.setled i .off) t = .next u ∧
      (newCalls s u).length = (if ledLit s i = true then 1 else 0) ∧ u.trace = t.trace ∧
      u.bankA = t.bankA ∧ u.bankB = t.bankB) ∧
    (∃ t u c, exec (.setled i .on) s = .next t ∧ exec (.setled i .on) t = .next u ∧
      u.trace = s.trace ++ [c, c] ∧ u.bankA = t.bankA ∧ u.bankB = t.bankB)

/-- R99 (the spec's decision D9): indices 15 and 16 under each policy. -/
def Obligations.HighIndicesFollowTheirPolicy : Prop :=
  ∀ (s : State) (i : Nat), i = 15 ∨ i = 16 →
    (s.cfg.idxHigh = .truncate →
      exec (.setled i .on) s =
        .next (afterCommand s s.bankA s.bankB [⟨s.cfg.devAddr, s.cfg.regDataB, s.bankB⟩] none) ∧
      exec (.setled i .off) s = .next { s with responses := s.responses ++ [none] }) ∧
    (s.cfg.idxHigh = .ignore →
      ∀ st, exec (.setled i st) s = .next { s with responses := s.responses ++ [none] }) ∧
    (s.cfg.idxHigh = .refuse → ∀ st, exec (.setled i st) s = .refused .highIndexRefused)

/-- R24: `bankB[7:6]` is changed only by `SETLED` 13 (bit 6) and 14 (bit 7); every other command leaves the two bits and
sends them, as they are, in each Bank-B data byte; from reset and without 13 and 14 they stay `0b00`. -/
def Obligations.BankBHighBitsChangeOnlyBy13And14 : Prop :=
  (∀ (s t : State) (i : Instr), exec i s = .next t →
    ((∀ st, i ≠ .setled 13 st) → t.bankB.getLsbD 6 = s.bankB.getLsbD 6) ∧
    ((∀ st, i ≠ .setled 14 st) → t.bankB.getLsbD 7 = s.bankB.getLsbD 7) ∧
    (s.cfg.wellFormed = true → (∀ st, i ≠ .setled 13 st) → (∀ st, i ≠ .setled 14 st) →
      ∀ c ∈ newCalls s t, c.reg = s.cfg.regDataB → c.data &&& highBits = s.bankB &&& highBits)) ∧
  (∀ (c : Config) (l : List Instr) (t : State),
    (∀ i ∈ l, ∀ st, i ≠ .setled 13 st ∧ i ≠ .setled 14 st) →
    runAll l { State.reset with cfg := c } = .next t → t.bankB &&& highBits = 0x00#8)

/-- Any sequence of `SETLED`s of 1..14 runs, and each LED then shows the last state asked of it, or what it showed before if
none was (spec/95_test_vectors.md S7; the source's reference bitmask model, seen LED by LED). -/
def Obligations.SequencesOfSetledsShowTheLastStateOfEachLed : Prop :=
  ∀ (l : List (Nat × LedState)) (s : State), (∀ p ∈ l, 1 ≤ p.1 ∧ p.1 ≤ 14) →
    ∃ t, runAll (l.map (fun p => .setled p.1 p.2)) s = .next t ∧
      (∀ k, 1 ≤ k → k ≤ 14 →
        ledLit t k = l.foldl (fun lit p => if p.1 = k then decide (p.2 = .on) else lit) (ledLit s k)) ∧
      t.bankA &&& highBits = s.bankA &&& highBits

/-! ### SETALL -/

/-- R100: `SETALL state` is `SETLED(i, state)` for i in 1..12 in ascending order. -/
def Obligations.SetallIsSetledOfOneToTwelve : Prop :=
  ∀ (s : State) (st : LedState),
    ∃ t u, exec (.setall st) s = .next t ∧
      runAll [.setled 1 st, .setled 2 st, .setled 3 st, .setled 4 st, .setled 5 st, .setled 6 st, .setled 7 st,
        .setled 8 st, .setled 9 st, .setled 10 st, .setled 11 st, .setled 12 st] s = .next u ∧ sameButResponses t u

/-- The closed form of `SETALL ON` (spec/42_bulk_ops.md section 1, R101, which the spec derives): always 12 calls. -/
def Obligations.SetallOnSendsTwelveCalls : Prop :=
  ∀ s : State,
    exec (.setall .on) s =
      .next (afterCommand s (s.bankA ||| ledBits) (s.bankB ||| ledBits)
        (onCalls s.cfg .a s.bankA 6 ++ onCalls s.cfg .b s.bankB 6) none)

/-- The closed form of `SETALL OFF` (spec/42_bulk_ops.md section 1, R102, which the spec derives): one call for each lit LED.
`bankA[7:6]`, always `0b00` in a state a run reaches (R23), is kept here for every state. -/
def Obligations.SetallOffSendsOneCallForEachLitLed : Prop :=
  ∀ s : State,
    exec (.setall .off) s =
      .next (afterCommand s (s.bankA &&& highBits) (s.bankB &&& highBits)
        (offCalls s.cfg .a s.bankA ++ offCalls s.cfg .b s.bankB) none) ∧
    (offCalls s.cfg .a s.bankA ++ offCalls s.cfg .b s.bankB).length = litLeds s

/-- `SETALL ON` then `SETALL OFF` sends the whole of both data registers, whatever was sent before
(spec/70_reset_and_hazards.md section 2, R155, which the spec derives). -/
def Obligations.AllOnThenAllOffResendsBothBanks : Prop :=
  ∀ s : State, s.cfg.wellFormed = true →
    ∃ t u, exec (.setall .on) s = .next t ∧ exec (.setall .off) t = .next u ∧
      ∀ id, u.dev.read (dataAddr s.cfg id) = some (readBank s id &&& highBits) ∧
        readBank u id = readBank s id &&& highBits

/-! ### BARGRAPH -/

/-- R104: the guard comes before anything else; when it triggers the command is exactly `SETALL OFF`. -/
def Obligations.BargraphGuardIsExactlySetallOff : Prop :=
  ∀ (s : State) (value max : Nat), value < 65536 → max < 65536 →
    (value > max ∨ max = 0 → exec (.bargraph value max) s = exec (.setall .off) s) ∧
    (barGuard value max = true ↔ value > max ∨ max = 0)

/-- R103: an invalid range darkens all LEDs; a valid one turns all LEDs off first, then LEDs 1..n on in ascending order, with
`n` the scaler's value under the instance's rounding (R105, the spec's decision D7), so that at the end LEDs 1 to n are lit
and the rest of 1..12 are dark. -/
def Obligations.BargraphLightsExactlyOneToN : Prop :=
  (∀ (s : State) (value max : Nat), value < 65536 → max < 65536 → value > max ∨ max = 0 →
    ∃ t u, exec (.bargraph value max) s = .next t ∧ runAll [.setall .off] s = .next u ∧ sameButResponses t u ∧
      ∀ k, 1 ≤ k → k ≤ 12 → ledLit t k = false) ∧
  ∀ (s : State) (value max n : Nat), value < 65536 → max < 65536 → value ≤ max → max ≠ 0 →
    n = (match s.cfg.barRound with
      | .floor => value * 12 / max
      | .halfUp => (value * 24 + max) / (2 * max)) →
    ∃ t u, exec (.bargraph value max) s = .next t ∧
      runAll (.setall .off :: (List.range' 1 n).map (fun i => .setled i .on)) s = .next u ∧ sameButResponses t u ∧
      ∀ k, 1 ≤ k → k ≤ 12 → ledLit t k = decide (k ≤ n)

/-- The scaler's properties (spec/42_bulk_ops.md section 2, R106 and R107, the latter derived by the spec): the widths it
needs, its bound, its ends, its monotony, its thresholds under `floor`, and the table for `max = 1023`. -/
def Obligations.ScaleIsBoundedMonotoneAndExactAtItsEnds : Prop :=
  (∀ r value max, 1 ≤ max → value ≤ max → scale r value max ≤ 12) ∧
  (∀ r max, 1 ≤ max → scale r 0 max = 0 ∧ scale r max max = 12) ∧
  (∀ r v w max, 1 ≤ max → v ≤ w → w ≤ max → scale r v max ≤ scale r w max) ∧
  (∀ value max k, 1 ≤ max → value ≤ max → (k ≤ scale .floor value max ↔ k * max ≤ value * 12)) ∧
  (∀ value max, value ≤ max → max < 65536 →
    value * 12 < 2 ^ 20 ∧ value * 24 + max < 2 ^ 21 ∧ 2 * max < 2 ^ 17) ∧
  (∀ p ∈ [(1, 86), (2, 171), (3, 256), (4, 341), (5, 427), (6, 512), (7, 597), (8, 682), (9, 768), (10, 853), (11, 938),
      (12, 1023)],
    ∀ value, value ≤ 1023 → (p.1 ≤ scale .floor value 1023 ↔ p.2 ≤ value))

/-- The closed form of `BARGRAPH` past the guard (spec/42_bulk_ops.md section 2, R108, which the spec derives): the calls of
`SETALL OFF`, then the bar from dark; `lit LEDs + n` calls. -/
def Obligations.BargraphRedrawsTheBarFromDark : Prop :=
  ∀ (s : State) (value max : Nat), value < 65536 → max < 65536 → value ≤ max → max ≠ 0 →
    exec (.bargraph value max) s =
      .next (afterCommand s
        ((s.bankA &&& highBits) ||| low (min (scale s.cfg.barRound value max) 6))
        ((s.bankB &&& highBits) ||| low (scale s.cfg.barRound value max - 6))
        (offCalls s.cfg .a s.bankA ++ offCalls s.cfg .b s.bankB ++
          onCalls s.cfg .a (s.bankA &&& highBits) (min (scale s.cfg.barRound value max) 6) ++
          onCalls s.cfg .b (s.bankB &&& highBits) (scale s.cfg.barRound value max - 6)) none)

/-- R109: the edge cases, under either rounding: `0, 1023` all dark; `1023, 1023` all lit; `512, 1023` exactly six lit;
`5, 0` and `1024, 1023` all dark by the guard. -/
def Obligations.BargraphEdgeCases : Prop :=
  ∀ s : State, ∃ t0 t1 t2 t3 t4,
    exec (.bargraph 0 1023) s = .next t0 ∧ exec (.bargraph 1023 1023) s = .next t1 ∧
    exec (.bargraph 512 1023) s = .next t2 ∧ exec (.bargraph 5 0) s = .next t3 ∧
    exec (.bargraph 1024 1023) s = .next t4 ∧
    ∀ k, 1 ≤ k → k ≤ 12 →
      ledLit t0 k = false ∧ ledLit t1 k = true ∧ ledLit t2 k = decide (k ≤ 6) ∧ ledLit t3 k = false ∧ ledLit t4 k = false

/-! ### PATTERN -/

/-- R111: for each position p in 0..11 in order, `SETLED(p + 1, ON)` if the pixel is set, else `SETLED(p + 1, OFF)`; every
call re-asserts all 12 LEDs, so LED p + 1 then shows pixel p. -/
def Obligations.PatternShowsItsPixels : Prop :=
  ∀ (s : State) (pixels : BitVec 12),
    ∃ t u, exec (.pattern pixels) s = .next t ∧
      runAll ((List.range 12).map (fun p => .setled (p + 1) (if pixels.getLsbD p then .on else .off))) s = .next u ∧
      sameButResponses t u ∧ ∀ p, p < 12 → ledLit t (p + 1) = pixels.getLsbD p

/-- The closed form of `PATTERN` (spec/42_bulk_ops.md section 3, R112, which the spec derives), with its number of calls. -/
def Obligations.PatternSendsSetPixelsAndLitClearedOnes : Prop :=
  ∀ (s : State) (pixels : BitVec 12),
    exec (.pattern pixels) s =
      .next (afterCommand s ((s.bankA &&& highBits) ||| pixelsA pixels) ((s.bankB &&& highBits) ||| pixelsB pixels)
        (patternCalls s.cfg .a (pixelsA pixels) s.bankA ++ patternCalls s.cfg .b (pixelsB pixels) s.bankB) none) ∧
    (patternCalls s.cfg .a (pixelsA pixels) s.bankA ++ patternCalls s.cfg .b (pixelsB pixels) s.bankB).length =
      popcount pixels +
        popcount (~~~ pixels &&& (s.bankB.extractLsb' 0 6 ++ s.bankA.extractLsb' 0 6 : BitVec 12))

/-! ### INIT -/

/-- R120, R126, and the order of R121 (the spec's decision D12): the four configuration writes, then `SETALL(OFF)`. -/
def Obligations.InitSendsTheConfigurationThenAllOff : Prop :=
  ∀ s : State,
    exec .init s =
      .next (afterCommand s (s.bankA &&& highBits) (s.bankB &&& highBits)
        ([⟨s.cfg.devAddr, s.cfg.regDirA, 0x00#8⟩, ⟨s.cfg.devAddr, s.cfg.regDirB, 0x00#8⟩,
          ⟨s.cfg.devAddr, s.cfg.regPullupA, 0xFF#8⟩, ⟨s.cfg.devAddr, s.cfg.regPullupB, 0xFF#8⟩] ++
          offCalls s.cfg .a s.bankA ++ offCalls s.cfg .b s.bankB) none)

/-- R123: idempotent in effect. After any `INIT` the banks and what the device was sent are as the rule says; a second
`INIT` directly after sends exactly the four configuration writes and changes nothing. The premise on `bankA` is R23. -/
def Obligations.InitTwiceLeavesTheSameEndState : Prop :=
  ∀ s : State, s.cfg.wellFormed = true → s.bankA &&& highBits = 0x00#8 →
    ∃ t u, exec .init s = .next t ∧ exec .init t = .next u ∧
      t.bankA = 0x00#8 ∧ t.bankB = s.bankB &&& highBits ∧
      (∀ v, v = t ∨ v = u →
        v.dev.read (busAddr s.cfg.devAddr s.cfg.regDirA) = some 0x00#8 ∧
        v.dev.read (busAddr s.cfg.devAddr s.cfg.regDirB) = some 0x00#8 ∧
        v.dev.read (busAddr s.cfg.devAddr s.cfg.regPullupA) = some 0xFF#8 ∧
        v.dev.read (busAddr s.cfg.devAddr s.cfg.regPullupB) = some 0xFF#8) ∧
      u.bankA = t.bankA ∧ u.bankB = t.bankB ∧ u.trace = t.trace ++ configCalls s.cfg ∧ u.dev = t.dev

/-- From reset `INIT` sends nothing to a data register, whatever the parameters: four calls, both data registers still
unwritten (spec/43_init.md R124 (b), which the spec derives; spec/90_conflicts.md C2). -/
def Obligations.InitFromResetLeavesTheDataRegistersUnwritten : Prop :=
  ∀ c : Config, c.wellFormed = true →
    ∃ t, exec .init { State.reset with cfg := c } = .next t ∧ t.trace = configCalls c ∧
      t.bankA = 0x00#8 ∧ t.bankB = 0x00#8 ∧ ∀ id, t.dev.read (dataAddr c id) = none

/-! ### All commands -/

/-- R130: every command, with every operand value and in every state, completes (indices 15 and 16 under `refuse` have no
step: R99). -/
def Obligations.EveryCommandCompletes : Prop :=
  ∀ (s : State) (i : Instr), i.wellFormed = true →
    (s.cfg.idxHigh = .refuse → ∀ st, i ≠ .setled 15 st ∧ i ≠ .setled 16 st) → ∃ t, exec i s = .next t

/-- No state stops the machine under `truncate` or `ignore`: a step always goes on (spec/60_exceptions.md sections 1, 3). -/
def Obligations.StepsAlwaysGoOn : Prop :=
  ∀ s : State, s.cfg.idxHigh ≠ .refuse → ∃ t, step s = .next t

/-- An operand wider than its port cannot be presented; the model refuses it (spec/93_implementation_defined.md U10; log 16). -/
def Obligations.OperandsWiderThanTheirPortAreRefused : Prop :=
  ∀ (s : State) (i : Instr), i.wellFormed = false → exec i s = .refused .operandTooWide

/-- The frame of every command: the parameters, the calls before the last reset, the inputs and the in-flight slot stay; the
trace only grows; the shadow records exactly the new calls; they all go to the one device (R49) and to registers the command
stores to; every address that is none of those reads as before; `GETBANK` changes nothing but the completions. -/
def Obligations.FrameOfEveryCommand : Prop :=
  ∀ (s t : State) (i : Instr), exec i s = .next t →
    t.cfg = s.cfg ∧ t.history = s.history ∧ t.inputs = s.inputs ∧ t.inFlight = s.inFlight ∧
    t.trace = s.trace ++ newCalls s t ∧ t.dev = replayOn s.dev (newCalls s t) ∧
    (∀ c ∈ newCalls s t, c.dev = s.cfg.devAddr ∧ c.reg ∈ (storeRegs i).map (regByte s.cfg)) ∧
    (∀ a, (∀ r ∈ storeRegs i, a ≠ busAddr s.cfg.devAddr (regByte s.cfg r)) → t.dev.read a = s.dev.read a) ∧
    (∀ id, i = .getbank id → t.bankA = s.bankA ∧ t.bankB = s.bankB)

/-- One completion a command, carrying the bank byte for `GETBANK` and nothing otherwise; on the wire `0x00`
(spec/30_encoding.md section 6, the spec's decision D17). -/
def Obligations.OneCompletionForEachCommand : Prop :=
  ∀ (s t : State) (i : Instr), exec i s = .next t →
    ∃ r, t.responses = s.responses ++ [r] ∧ (∀ id, i = .getbank id → r = some (readBank s id)) ∧
      ((∀ id, i ≠ .getbank id) → r = none ∧ rspData r = 0x00#8)

/-- R42: no command's result depends on anything the device holds, or on what was sent before: with any other shadow, trace
and history the banks, the calls made and the response are the same. -/
def Obligations.ResultsDoNotDependOnTheDevice : Prop :=
  ∀ (s t : State) (i : Instr) (m : Memory) (sent older : List BusWrite), exec i s = .next t →
    ∃ u, exec i { s with dev := m, trace := sent, history := older } = .next u ∧
      u.bankA = t.bankA ∧ u.bankB = t.bankB ∧ u.responses = t.responses ∧ u.trace = sent ++ newCalls s t

/-- No command changes `bankA[7:6]`, which is therefore `0b00` at all times (spec/10_state.md section 1, R23, which the spec
derives); so after `SETALL ON` a `GETBANK A` responds `0x3F`, not `0xFF` (spec/90_conflicts.md C1). -/
def Obligations.BankAHighBitsNeverChange : Prop :=
  (∀ (s t : State) (i : Instr), exec i s = .next t → t.bankA &&& highBits = s.bankA &&& highBits) ∧
  (∀ s : State, s.bankA &&& highBits = 0x00#8 →
    ∃ t, runAll [.setall .on, .getbank .a] s = .next t ∧ t.responses = s.responses ++ [none, some 0x3F#8])

/-- The number of calls of each command (spec/70_reset_and_hazards.md section 4, R167, which the spec derives). -/
def Obligations.CallCountsOfEachCommand : Prop :=
  ∀ (s t : State) (i : Instr), exec i s = .next t →
    match i with
    | .init => (newCalls s t).length = 4 + litLeds s
    | .setled _ _ => (newCalls s t).length ≤ 1
    | .setall .on => (newCalls s t).length = 12
    | .setall .off => (newCalls s t).length = litLeds s
    | .bargraph value max =>
      (newCalls s t).length = litLeds s + (if value > max ∨ max = 0 then 0 else scale s.cfg.barRound value max)
    | .pattern _ => (newCalls s t).length ≤ 12
    | .getbank _ => (newCalls s t).length = 0

/-- R33: after every command, for each bank, either nothing was sent to its data register and it holds `0x00`, or the last
byte sent is the bank. From every state in which that holds, under distinct register identifiers (R5), every command keeps
it. -/
def Obligations.EveryCommandKeepsCacheAndDeviceConsistent : Prop :=
  (∀ c : Config, ∀ id, Consistent { State.reset with cfg := c } id) ∧
  ∀ (s t : State) (i : Instr), s.cfg.wellFormed = true → (∀ id, Consistent s id) → exec i s = .next t →
    ∀ id, Consistent t id

/-! ### The invariant of the machine, with the Bus Writer's pacing -/

/-- The invariant holds at reset, for every set of distinct register identifiers. -/
def Obligations.ResetMeetsTheInvariant : Prop :=
  Inv State.reset ∧ ∀ c : Config, c.wellFormed = true → Inv { State.reset with cfg := c }

/-- Every step keeps the invariant, whatever the input: a command, a command the bus stalls, the bus accepting again, a reset
between commands or during one (spec/10_state.md section 5; the pacing is log 11). -/
def Obligations.EveryStepKeepsTheInvariant : Prop :=
  ∀ s t : State, Inv s → step s = .next t → Inv t

/-- A command that the Bus Writer stalls after `k` calls and that then gets its remaining calls accepted ends in exactly the
state the command gives without a stall; until then it has not completed and has sent exactly its first `k` calls
(spec/20_memory.md section 5: `bw_ready` only paces the block; log 11). -/
def Obligations.StalledCommandEndsAsTheUnstalledOne : Prop :=
  ∀ (s u : State) (w : CmdWord) (i : Instr) (k n : Nat) (rest : List Input),
    s.cfg.wellFormed = true → s.inFlight = none → s.inputs = .commandStalled w k :: .busReady n :: rest →
    decode w = .instr i → exec i { s with inputs := rest } = .next u → (newCalls s u).length ≤ k + n →
    ∃ t, step s = .next t ∧ step t = .next u ∧ t.trace = s.trace ++ (newCalls s u).take k ∧
      (k < (newCalls s u).length → heldCall t = (newCalls s u)[k]? ∧ t.responses = s.responses)

/-- The Bus Writer takes a stalled command's calls a few at a time: after `k` calls at first and `n` more, with at least one
left, exactly the first `k + n` are sent, the next one is held, nothing is completed, waiting commands wait, and accepting the
rest would end in the state of the unstalled command; a stalled reserved word has no call to stall and completes at once
(spec/20_memory.md section 5; spec/30_encoding.md section 4; the pacing is log 11, the waiting log 5). -/
def Obligations.StalledCommandAdvancesCallByCall : Prop :=
  (∀ (s u : State) (w : CmdWord) (i : Instr) (k n : Nat) (waiting rest : List Input),
    s.inFlight = none → s.inputs = .commandStalled w k :: (waiting ++ .busReady n :: rest) →
    (∀ x ∈ waiting, x.isCommand = true) → decode w = .instr i →
    exec i { s with inputs := waiting ++ rest } = .next u → k + n < (newCalls s u).length →
    ∃ t v, step s = .next t ∧ step t = .next v ∧ v.trace = s.trace ++ (newCalls s u).take (k + n) ∧
      heldCall v = (newCalls s u)[k + n]? ∧ v.responses = s.responses ∧ v.inputs = waiting ++ rest ∧
      (s.cfg.wellFormed = true → settled v = u)) ∧
  (∀ (s : State) (w : CmdWord) (op : Byte) (k : Nat) (rest : List Input),
    s.inFlight = none → s.inputs = .commandStalled w k :: rest → decode w = .invalid op →
    step s = .next { s with inputs := rest, responses := s.responses ++ [none] })

/-- Once the block has sent anything to a bank's data register since reset, the device holds the bank, whatever it held at
power-on (spec/10_state.md section 5). `deviceHolds` carries the premises (a) and (b) of R34, every call delivered and no
other writer (log 12), and that the device is not reset with the block (log 7): all the model's choice. -/
def Obligations.DeviceHoldsTheBankOnceWritten : Prop :=
  ∀ (s : State) (id : BankId) (initial : Byte), Inv s → s.inFlight = none →
    s.dev.read (dataAddr s.cfg id) ≠ none →
    deviceHolds initial (dataAddr s.cfg id) (s.history ++ s.trace) = readBank s id

/-- A reset of the block alone is not repaired by `INIT`: the device keeps the non-zero byte it was sent while the bank is
`0x00` (spec/70_reset_and_hazards.md section 3, R157, which the spec derives). `deviceHolds` carries the premises (a) and (b)
of R34, every call delivered and no other writer (log 12), and that the device is not reset with the block (log 7): all the
model's choice. That the inputs stay across the reset is log 9. -/
def Obligations.InitAfterResetDoesNotRepairTheDevice : Prop :=
  ∀ (s : State) (id : BankId) (initial : Byte) (rest : List Input), Inv s → s.inFlight = none →
    s.inputs = .reset :: .command (encode .init) :: rest → readBank s id ≠ 0x00#8 →
    ∃ t u, step s = .next t ∧ step t = .next u ∧ readBank u id = 0x00#8 ∧
      deviceHolds initial (dataAddr s.cfg id) (u.history ++ u.trace) = readBank s id
end

