-- ==== Sys2Proof/Laws/Memory.lean ====
section
/-! SUPPORT. The laws of the device shadow: read after write, and that every operation keeps the canonical form. -/

namespace Sys2Proof.Machine

@[simp] theorem Memory.read_nil (a : Nat) : Memory.read [] a = none := rfl

/-- A write is read back. -/
@[simp] theorem Memory.read_write_same (m : Memory) (a : Nat) (v : Byte) : (m.write a v).read a = some v := by
  induction m with
  | nil => simp [Memory.write, Memory.read]
  | cons c m ih =>
    obtain ⟨b, u⟩ := c
    simp only [Memory.write]
    split
    · simp [Memory.read]
    · split
      · simp [Memory.read]
      · rename_i _ hne
        simp only [Memory.read, if_neg hne]
        exact ih

/-- A write leaves every other address alone. -/
theorem Memory.read_write_other (m : Memory) (a b : Nat) (v : Byte) (h : b ≠ a) :
    (m.write a v).read b = m.read b := by
  induction m with
  | nil => simp [Memory.write, Memory.read, h]
  | cons c m ih =>
    obtain ⟨k, u⟩ := c
    simp only [Memory.write]
    split
    · simp [Memory.read, h]
    · split
      · rename_i _ he
        subst he
        simp [Memory.read, h]
      · simp only [Memory.read]
        split
        · rfl
        · exact ih

/-- The addresses of a memory after a write: the old ones and the one written. -/
theorem Memory.mem_write {m : Memory} {a : Nat} {v : Byte} {c : Host.Cell} (h : c ∈ m.write a v) :
    c = (a, v) ∨ c ∈ m := by
  induction m with
  | nil => exact .inl (by simpa [Memory.write] using h)
  | cons d m ih =>
    obtain ⟨k, u⟩ := d
    simp only [Memory.write] at h
    split at h
    · simpa using h
    · split at h
      · rcases List.mem_cons.mp h with h | h
        · exact .inl h
        · exact .inr (List.mem_cons_of_mem _ h)
      · rcases List.mem_cons.mp h with h | h
        · exact .inr (h ▸ List.mem_cons_self ..)
        · exact (ih h).imp id (List.mem_cons_of_mem _)

/-- The canonical form in words. -/
theorem Memory.wf_iff (m : Memory) :
    m.wf = true ↔ (m.map Prod.fst).Pairwise (· < ·) ∧ ∀ c ∈ m, c.1 < busSpace := by
  simp [Memory.wf]

/-- A write inside the register space keeps the canonical form. -/
theorem Memory.write_wf {m : Memory} {a : Nat} (v : Byte) (h : m.wf = true) (ha : a < busSpace) :
    (m.write a v).wf = true := by
  rw [Memory.wf_iff] at h ⊢
  refine ⟨?_, fun c hc => (Memory.mem_write hc).elim (fun e => e ▸ ha) (h.2 c)⟩
  have hp := h.1
  clear h
  induction m with
  | nil => simp [Memory.write]
  | cons c m ih =>
    obtain ⟨k, u⟩ := c
    simp only [List.map_cons, List.pairwise_cons] at hp
    simp only [Memory.write]
    split
    · rename_i hlt
      simp only [List.map_cons, List.pairwise_cons, List.mem_cons]
      refine ⟨?_, hp⟩
      rintro x (rfl | hx)
      · exact hlt
      · exact Nat.lt_trans hlt (hp.1 x hx)
    · split
      · rename_i _ he
        subst he
        simpa using hp
      · rename_i hge hne
        simp only [List.map_cons, List.pairwise_cons]
        refine ⟨?_, ih hp.2⟩
        intro x hx
        obtain ⟨d, hd, rfl⟩ := List.mem_map.mp hx
        rcases Memory.mem_write hd with rfl | hd
        · have : ¬ a < k := hge
          have : ¬ a = k := hne
          simp only
          omega
        · exact hp.1 _ (List.mem_map_of_mem hd)

/-- Every key of the register space is below its bound. -/
theorem busAddr_lt (dev : DevAddr) (reg : Byte) : busAddr dev reg < busSpace := by
  have h1 := dev.isLt
  have h2 := reg.isLt
  unfold busAddr busSpace
  omega

/-- Two keys agree only on the same device and register. -/
theorem busAddr_inj {d e : DevAddr} {r q : Byte} : busAddr d r = busAddr e q ↔ d = e ∧ r = q := by
  constructor
  · intro h
    have h1 := r.isLt
    have h2 := q.isLt
    unfold busAddr at h
    exact ⟨BitVec.eq_of_toNat_eq (by omega), BitVec.eq_of_toNat_eq (by omega)⟩
  · rintro ⟨rfl, rfl⟩
    rfl

/-- Recording a call keeps the canonical form. -/
theorem Memory.record_wf {m : Memory} (c : BusWrite) (h : m.wf = true) : (m.record c).wf = true :=
  Memory.write_wf c.data h (busAddr_lt c.dev c.reg)

@[simp] theorem replayOn_nil (m : Memory) : replayOn m [] = m := rfl

@[simp] theorem replayOn_append (m : Memory) (l k : List BusWrite) :
    replayOn m (l ++ k) = replayOn (replayOn m l) k := by simp [replayOn]

/-- Recording a list of calls keeps the canonical form. -/
theorem replayOn_wf {m : Memory} (l : List BusWrite) (h : m.wf = true) : (replayOn m l).wf = true := by
  induction l generalizing m with
  | nil => exact h
  | cons c l ih => exact ih (Memory.record_wf c h)

/-- An address no call goes to reads as before. -/
theorem replayOn_read_other {m : Memory} (l : List BusWrite) {a : Nat} (h : ∀ c ∈ l, c.addr ≠ a) :
    (replayOn m l).read a = m.read a := by
  induction l generalizing m with
  | nil => rfl
  | cons c l ih =>
    have hc : a ≠ c.addr := (h c (List.mem_cons_self ..)).symm
    exact (ih (m := m.record c) (fun d hd => h d (List.mem_cons_of_mem _ hd))).trans
      (Memory.read_write_other m c.addr a c.data hc)

/-- The memory at reset is canonical. -/
theorem reset_dev_wf : State.reset.dev.wf = true := rfl

end Sys2Proof.Machine
end

