-- ==== Sys2Proof/Laws/State.lean ====
section
/-! SUPPORT. One lemma per field per update, so that no later proof unfolds a record update. -/

namespace Sys2Proof.Machine

/-! writeBank -/
@[simp] theorem writeBank_a_bankA (s : State) (v : Byte) : (writeBank s .a v).bankA = v := rfl
@[simp] theorem writeBank_a_bankB (s : State) (v : Byte) : (writeBank s .a v).bankB = s.bankB := rfl
@[simp] theorem writeBank_b_bankA (s : State) (v : Byte) : (writeBank s .b v).bankA = s.bankA := rfl
@[simp] theorem writeBank_b_bankB (s : State) (v : Byte) : (writeBank s .b v).bankB = v := rfl
@[simp] theorem writeBank_cfg (s : State) (id : BankId) (v : Byte) : (writeBank s id v).cfg = s.cfg := by cases id <;> rfl
@[simp] theorem writeBank_dev (s : State) (id : BankId) (v : Byte) : (writeBank s id v).dev = s.dev := by cases id <;> rfl
@[simp] theorem writeBank_trace (s : State) (id : BankId) (v : Byte) : (writeBank s id v).trace = s.trace := by
  cases id <;> rfl
@[simp] theorem writeBank_history (s : State) (id : BankId) (v : Byte) : (writeBank s id v).history = s.history := by
  cases id <;> rfl
@[simp] theorem writeBank_responses (s : State) (id : BankId) (v : Byte) :
    (writeBank s id v).responses = s.responses := by cases id <;> rfl
@[simp] theorem writeBank_inFlight (s : State) (id : BankId) (v : Byte) :
    (writeBank s id v).inFlight = s.inFlight := by cases id <;> rfl
@[simp] theorem writeBank_inputs (s : State) (id : BankId) (v : Byte) : (writeBank s id v).inputs = s.inputs := by
  cases id <;> rfl

/-! readBank -/
@[simp] theorem readBank_a (s : State) : readBank s .a = s.bankA := rfl
@[simp] theorem readBank_b (s : State) : readBank s .b = s.bankB := rfl
@[simp] theorem readBank_writeBank_same (s : State) (id : BankId) (v : Byte) : readBank (writeBank s id v) id = v := by
  cases id <;> rfl
theorem readBank_writeBank_other (s : State) (id other : BankId) (v : Byte) (h : other ≠ id) :
    readBank (writeBank s id v) other = readBank s other := by
  cases id <;> cases other <;> first | rfl | exact absurd rfl h

/-! transfer -/
@[simp] theorem transfer_cfg (s : State) (c : BusWrite) : (transfer s c).cfg = s.cfg := rfl
@[simp] theorem transfer_bankA (s : State) (c : BusWrite) : (transfer s c).bankA = s.bankA := rfl
@[simp] theorem transfer_bankB (s : State) (c : BusWrite) : (transfer s c).bankB = s.bankB := rfl
@[simp] theorem transfer_dev (s : State) (c : BusWrite) : (transfer s c).dev = s.dev.record c := rfl
@[simp] theorem transfer_trace (s : State) (c : BusWrite) : (transfer s c).trace = s.trace ++ [c] := rfl
@[simp] theorem transfer_history (s : State) (c : BusWrite) : (transfer s c).history = s.history := rfl
@[simp] theorem transfer_responses (s : State) (c : BusWrite) : (transfer s c).responses = s.responses := rfl
@[simp] theorem transfer_inFlight (s : State) (c : BusWrite) : (transfer s c).inFlight = s.inFlight := rfl
@[simp] theorem transfer_inputs (s : State) (c : BusWrite) : (transfer s c).inputs = s.inputs := rfl

/-! busWrite -/
@[simp] theorem busWrite_cfg (s : State) (r : Reg) (d : Byte) : (busWrite s r d).cfg = s.cfg := rfl
@[simp] theorem busWrite_bankA (s : State) (r : Reg) (d : Byte) : (busWrite s r d).bankA = s.bankA := rfl
@[simp] theorem busWrite_bankB (s : State) (r : Reg) (d : Byte) : (busWrite s r d).bankB = s.bankB := rfl
@[simp] theorem busWrite_dev (s : State) (r : Reg) (d : Byte) :
    (busWrite s r d).dev = s.dev.record (callOf s.cfg r d) := rfl
@[simp] theorem busWrite_trace (s : State) (r : Reg) (d : Byte) :
    (busWrite s r d).trace = s.trace ++ [callOf s.cfg r d] := rfl
@[simp] theorem busWrite_history (s : State) (r : Reg) (d : Byte) : (busWrite s r d).history = s.history := rfl
@[simp] theorem busWrite_responses (s : State) (r : Reg) (d : Byte) : (busWrite s r d).responses = s.responses := rfl
@[simp] theorem busWrite_inFlight (s : State) (r : Reg) (d : Byte) : (busWrite s r d).inFlight = s.inFlight := rfl
@[simp] theorem busWrite_inputs (s : State) (r : Reg) (d : Byte) : (busWrite s r d).inputs = s.inputs := rfl

/-! complete -/
@[simp] theorem complete_cfg (s : State) (r : Option Byte) : (complete s r).cfg = s.cfg := rfl
@[simp] theorem complete_bankA (s : State) (r : Option Byte) : (complete s r).bankA = s.bankA := rfl
@[simp] theorem complete_bankB (s : State) (r : Option Byte) : (complete s r).bankB = s.bankB := rfl
@[simp] theorem complete_dev (s : State) (r : Option Byte) : (complete s r).dev = s.dev := rfl
@[simp] theorem complete_trace (s : State) (r : Option Byte) : (complete s r).trace = s.trace := rfl
@[simp] theorem complete_history (s : State) (r : Option Byte) : (complete s r).history = s.history := rfl
@[simp] theorem complete_responses (s : State) (r : Option Byte) : (complete s r).responses = s.responses ++ [r] := rfl
@[simp] theorem complete_inFlight (s : State) (r : Option Byte) : (complete s r).inFlight = s.inFlight := rfl
@[simp] theorem complete_inputs (s : State) (r : Option Byte) : (complete s r).inputs = s.inputs := rfl

/-! resetBlock -/
@[simp] theorem resetBlock_cfg (s : State) : (resetBlock s).cfg = s.cfg := rfl
@[simp] theorem resetBlock_bankA (s : State) : (resetBlock s).bankA = 0x00#8 := rfl
@[simp] theorem resetBlock_bankB (s : State) : (resetBlock s).bankB = 0x00#8 := rfl
@[simp] theorem resetBlock_dev (s : State) : (resetBlock s).dev = [] := rfl
@[simp] theorem resetBlock_trace (s : State) : (resetBlock s).trace = [] := rfl
@[simp] theorem resetBlock_history (s : State) : (resetBlock s).history = s.history ++ s.trace := rfl
@[simp] theorem resetBlock_responses (s : State) : (resetBlock s).responses = [] := rfl
@[simp] theorem resetBlock_inFlight (s : State) : (resetBlock s).inFlight = none := rfl
@[simp] theorem resetBlock_inputs (s : State) : (resetBlock s).inputs = s.inputs := rfl

/-! mirror -/
@[simp] theorem mirror_cfg (s : State) (c : BusWrite) : (mirror s c).cfg = s.cfg := by
  unfold mirror; split <;> [rfl; (split <;> rfl)]
@[simp] theorem mirror_dev (s : State) (c : BusWrite) : (mirror s c).dev = s.dev := by
  unfold mirror; split <;> [rfl; (split <;> rfl)]
@[simp] theorem mirror_trace (s : State) (c : BusWrite) : (mirror s c).trace = s.trace := by
  unfold mirror; split <;> [rfl; (split <;> rfl)]
@[simp] theorem mirror_history (s : State) (c : BusWrite) : (mirror s c).history = s.history := by
  unfold mirror; split <;> [rfl; (split <;> rfl)]
@[simp] theorem mirror_responses (s : State) (c : BusWrite) : (mirror s c).responses = s.responses := by
  unfold mirror; split <;> [rfl; (split <;> rfl)]
@[simp] theorem mirror_inFlight (s : State) (c : BusWrite) : (mirror s c).inFlight = s.inFlight := by
  unfold mirror; split <;> [rfl; (split <;> rfl)]
@[simp] theorem mirror_inputs (s : State) (c : BusWrite) : (mirror s c).inputs = s.inputs := by
  unfold mirror; split <;> [rfl; (split <;> rfl)]

/-! afterCommand -/
@[simp] theorem afterCommand_cfg (s : State) (a b : Byte) (l : List BusWrite) (r : Option Byte) :
    (afterCommand s a b l r).cfg = s.cfg := rfl
@[simp] theorem afterCommand_bankA (s : State) (a b : Byte) (l : List BusWrite) (r : Option Byte) :
    (afterCommand s a b l r).bankA = a := rfl
@[simp] theorem afterCommand_bankB (s : State) (a b : Byte) (l : List BusWrite) (r : Option Byte) :
    (afterCommand s a b l r).bankB = b := rfl
@[simp] theorem afterCommand_dev (s : State) (a b : Byte) (l : List BusWrite) (r : Option Byte) :
    (afterCommand s a b l r).dev = replayOn s.dev l := rfl
@[simp] theorem afterCommand_trace (s : State) (a b : Byte) (l : List BusWrite) (r : Option Byte) :
    (afterCommand s a b l r).trace = s.trace ++ l := rfl
@[simp] theorem afterCommand_history (s : State) (a b : Byte) (l : List BusWrite) (r : Option Byte) :
    (afterCommand s a b l r).history = s.history := rfl
@[simp] theorem afterCommand_responses (s : State) (a b : Byte) (l : List BusWrite) (r : Option Byte) :
    (afterCommand s a b l r).responses = s.responses ++ [r] := rfl
@[simp] theorem afterCommand_inFlight (s : State) (a b : Byte) (l : List BusWrite) (r : Option Byte) :
    (afterCommand s a b l r).inFlight = s.inFlight := rfl
@[simp] theorem afterCommand_inputs (s : State) (a b : Byte) (l : List BusWrite) (r : Option Byte) :
    (afterCommand s a b l r).inputs = s.inputs := rfl

end Sys2Proof.Machine
end

