-- ==== Sys2Proof/Laws/Ops.lean ====
section
/-! SUPPORT. What the shared operations can do: one equation a path of `setLed`, an induction over the loops, and one
induction over a whole command, which the proofs cite instead of unfolding. -/

namespace Sys2Proof.Machine

/-- An index the mapper does not accept has no effect (R91, R99). -/
theorem setLed_ignored {s : State} {i : Nat} (st : LedState) (h : acceptsIndex s.cfg.idxHigh i = false) :
    setLed s i st = s := by simp [setLed, h]

/-- The ON path (R93). -/
theorem setLed_on {s : State} {i : Nat} (h : acceptsIndex s.cfg.idxHigh i = true) :
    setLed s i .on =
      busWrite (writeBank s (ledBank i) (readBank s (ledBank i) ||| mask (ledPos i))) (dataReg (ledBank i))
        (readBank s (ledBank i) ||| mask (ledPos i)) := by simp [setLed, h, setBit]

/-- The OFF path when the bit is set (R94). -/
theorem setLed_off_set {s : State} {i : Nat} (h : acceptsIndex s.cfg.idxHigh i = true)
    (hb : readBank s (ledBank i) &&& mask (ledPos i) ≠ 0#8) :
    setLed s i .off =
      busWrite (writeBank s (ledBank i) (readBank s (ledBank i) ^^^ mask (ledPos i))) (dataReg (ledBank i))
        (readBank s (ledBank i) ^^^ mask (ledPos i)) := by simp [setLed, h, clearBit, testBit, hb]

/-- The OFF path when the bit is clear (R94). -/
theorem setLed_off_clear {s : State} {i : Nat} (hb : readBank s (ledBank i) &&& mask (ledPos i) = 0#8) :
    setLed s i .off = s := by simp [setLed, clearBit, testBit, hb]

/-- Everything `setLed` can do: nothing, or one new value of one bank sent to that bank's data register. -/
theorem setLed_cases (s : State) (i : Nat) (st : LedState) :
    setLed s i st = s ∨
      (acceptsIndex s.cfg.idxHigh i = true ∧ ∃ v,
        setLed s i st = busWrite (writeBank s (ledBank i) v) (dataReg (ledBank i)) v ∧
        (st = .on ∧ v = readBank s (ledBank i) ||| mask (ledPos i) ∨
          st = .off ∧ readBank s (ledBank i) &&& mask (ledPos i) ≠ 0#8 ∧
            v = readBank s (ledBank i) ^^^ mask (ledPos i))) := by
  cases h : acceptsIndex s.cfg.idxHigh i with
  | false => exact .inl (setLed_ignored st h)
  | true =>
    cases st with
    | on => exact .inr ⟨rfl, _, setLed_on h, .inl ⟨rfl, rfl⟩⟩
    | off =>
      by_cases hb : readBank s (ledBank i) &&& mask (ledPos i) = 0#8
      · exact .inl (setLed_off_clear hb)
      · exact .inr ⟨rfl, _, setLed_off_set h hb, .inr ⟨rfl, hb, rfl⟩⟩

/-- `setLed` never changes the parameters. -/
@[simp] theorem setLed_cfg (s : State) (i : Nat) (st : LedState) : (setLed s i st).cfg = s.cfg := by
  rcases setLed_cases s i st with h | ⟨-, v, h, -⟩ <;> simp [h]

@[simp] theorem forRange_zero (first : Nat) (body : State → Nat → State) (s : State) :
    forRange first 0 body s = s := rfl

/-- One turn of a loop. -/
theorem forRange_succ (first count : Nat) (body : State → Nat → State) (s : State) :
    forRange first (count + 1) body s = forRange (first + 1) count body (body s first) := rfl

/-- What every turn of a loop keeps, the loop keeps. -/
theorem forRange_keeps {P : State → Prop} {body : State → Nat → State} (hb : ∀ t i, P t → P (body t i))
    (first count : Nat) {s : State} (hs : P s) : P (forRange first count body s) := by
  induction count generalizing first s with
  | zero => exact hs
  | succ n ih => exact ih (first + 1) (hb s first hs)

/-- What every single-LED operation keeps, `SETALL` keeps. -/
theorem setAll_keeps {P : State → Prop} (hl : ∀ t i st, P t → P (setLed t i st)) {s : State} (st : LedState)
    (hs : P s) : P (setAll s st) := forRange_keeps (fun t i ht => hl t i st ht) 1 nLed hs

/-- What every single-LED operation keeps, `BARGRAPH` keeps. -/
theorem barGraph_keeps {P : State → Prop} (hl : ∀ t i st, P t → P (setLed t i st)) {s : State} (value max : Nat)
    (hs : P s) : P (barGraph s value max) := by
  unfold barGraph
  split
  · exact setAll_keeps hl .off hs
  · exact forRange_keeps (fun t i ht => hl t i .on ht) _ _ (setAll_keeps hl .off hs)

/-- What every single-LED operation keeps, `PATTERN` keeps. -/
theorem showPattern_keeps {P : State → Prop} (hl : ∀ t i st, P t → P (setLed t i st)) {s : State}
    (pixels : BitVec 12) (hs : P s) : P (showPattern s pixels) :=
  forRange_keeps (fun t p ht => hl t (p + 1) (pixelState pixels p) ht) 0 nLed hs

/-- A whole command: what single-LED operations, configuration writes and completions keep, the command keeps. -/
theorem exec_keeps {P : State → Prop} (hl : ∀ t i st, P t → P (setLed t i st))
    (hc : ∀ t, P t → P (configureDevice t)) (hr : ∀ t r, P t → P (complete t r))
    {i : Instr} {s t : State} (h : exec i s = .next t) (hs : P s) : P t := by
  cases i with
  | init =>
    cases h
    exact hr _ _ (setAll_keeps hl .off (hc s hs))
  | setled index state =>
    simp only [exec, execSetled] at h
    split at h
    · split at h
      · cases h
      · cases h
        exact hr _ _ (hl _ _ _ hs)
    · cases h
  | setall state =>
    cases h
    exact hr _ _ (setAll_keeps hl state hs)
  | bargraph value max =>
    simp only [exec, execBargraph] at h
    split at h
    · cases h
      exact hr _ _ (barGraph_keeps hl value max hs)
    · cases h
  | pattern pixels =>
    cases h
    exact hr _ _ (showPattern_keeps hl pixels hs)
  | getbank id =>
    cases h
    exact hr _ _ hs

end Sys2Proof.Machine
end

