-- ==== Sys2Proof/Laws/PerInstr.lean ====
section
/-! SUPPORT. A fact of every command as a term: its canonical word carries its opcode in bits 39..32 (spec/30_encoding.md R60, R61). -/

/-- The opcode field of the canonical word is the command's opcode. -/
def Sys2Proof.Laws.EncodeOpcode.Statement (i : Sys2Proof.Instr) : Prop :=
  Sys2Proof.cmdOp (Sys2Proof.encode i) = Sys2Proof.opcode i

namespace Sys2Proof.Laws.EncodeOpcode

/-- The upper part of an opcode and a payload put together is the opcode. -/
theorem cmdOp_append (op : Byte) (pl : BitVec 32) : cmdOp (op ++ pl) = op := by
  apply BitVec.eq_of_toNat_eq
  have hp := pl.isLt
  have ho := op.isLt
  have e := Nat.shiftLeft_add_eq_or_of_lt hp op.toNat
  simp only [cmdOp, BitVec.extractLsb'_toNat, BitVec.toNat_append, Nat.shiftRight_eq_div_pow, Nat.shiftLeft_eq]
  rw [Nat.shiftLeft_eq] at e
  rw [← e]
  omega

theorem init : Statement .init := cmdOp_append _ _
theorem setled (index : Nat) (state : LedState) : Statement (.setled index state) := cmdOp_append _ _
theorem setall (state : LedState) : Statement (.setall state) := cmdOp_append _ _
theorem bargraph (value max : Nat) : Statement (.bargraph value max) := cmdOp_append _ _
theorem pattern (pixels : BitVec 12) : Statement (.pattern pixels) := cmdOp_append _ _
theorem getbank (id : BankId) : Statement (.getbank id) := cmdOp_append _ _

end Sys2Proof.Laws.EncodeOpcode
end

