-- ==== Sys2Proof/Laws/Ports.lean ====
section
/-! SUPPORT. What the ports can do: the handshake of an idle and of a busy block, and everything one step can be. -/

namespace Sys2Proof.Machine

@[simp] theorem pendingCalls_idle {s : State} (h : s.inFlight = none) : pendingCalls s = [] := by simp [pendingCalls, h]

/-- A Bus Writer that accepts calls changes nothing while the block is idle. -/
@[simp] theorem advance_idle {s : State} (n : Nat) (h : s.inFlight = none) : advance n s = s := by simp [advance, h]

@[simp] theorem settled_idle {s : State} (h : s.inFlight = none) : settled s = s := advance_idle _ h

/-- The command in flight completes when its last call is taken. -/
theorem advance_completes {s : State} {f : InFlight} {n : Nat} (h : s.inFlight = some f) (hn : f.calls.length ≤ n) :
    advance n s =
      { f.calls.foldl present s with
        responses := (f.calls.foldl present s).responses ++ [f.response], inFlight := none } := by
  simp [advance, h, List.take_of_length_le hn, List.drop_eq_nil_of_le hn]

/-- The invariant of an idle block does not depend on what the environment does next. -/
theorem Inv.with_inputs {s : State} (h : Inv s) (hi : s.inFlight = none) (l : List Input) :
    Inv { s with inputs := l } where
  cfg_wf := h.cfg_wf
  bankA_high := h.bankA_high
  dev_wf := h.dev_wf
  dev_replay := h.dev_replay
  calls_legal := h.calls_legal
  holds_call := h.holds_call
  consistent := by
    intro id
    rw [settled_idle (s := { s with inputs := l }) hi]
    have := h.consistent id
    rw [settled_idle hi] at this
    cases id <;> exact this

/-- An event is found behind any number of waiting commands, which stay in their order. -/
theorem takeEvent_behind {waiting rest : List Input} {x : Input} (hw : ∀ y ∈ waiting, y.isCommand = true)
    (hx : x.isCommand = false) : takeEvent (waiting ++ x :: rest) = some (x, waiting ++ rest) := by
  induction waiting with
  | nil => simp [takeEvent, hx]
  | cons y waiting ih =>
    have hy := hw y (List.mem_cons_self ..)
    simp [takeEvent, hy, ih (fun z hz => hw z (List.mem_cons_of_mem _ hz))]

/-- Among commands alone there is no event to take. -/
theorem takeEvent_none {l : List Input} (h : ∀ y ∈ l, y.isCommand = true) : takeEvent l = none := by
  induction l with
  | nil => rfl
  | cons y l ih =>
    simp [takeEvent, h y (List.mem_cons_self ..), ih (fun z hz => h z (List.mem_cons_of_mem _ hz))]

/-- What is taken while busy presents no command. -/
theorem takeEvent_not_command {l r : List Input} {x : Input} (h : takeEvent l = some (x, r)) : x.isCommand = false := by
  induction l generalizing r with
  | nil => cases h
  | cons y l ih =>
    simp only [takeEvent] at h
    split at h
    · obtain ⟨p, hp, he⟩ := Option.map_eq_some_iff.mp h
      cases he
      exact ih hp
    · rename_i hn
      cases h
      simpa using hn

/-- An idle block takes the head of its inputs. -/
theorem nextInput_idle {s : State} {x : Input} {rest : List Input} (hf : s.inFlight = none)
    (hi : s.inputs = x :: rest) : nextInput s = some (x, { s with inputs := rest }) := by
  simp [nextInput, cmdReady, hf, hi]

/-- A busy block takes the first event behind the waiting commands. -/
theorem nextInput_busy {s : State} {f : InFlight} (hf : s.inFlight = some f) :
    nextInput s = (takeEvent s.inputs).map (fun p => (p.1, { s with inputs := p.2 })) := by
  simp [nextInput, cmdReady, hf]

/-- Whatever is taken, only the inputs change, and a command is taken from the head of an idle block's inputs only. -/
theorem nextInput_cases {s t : State} {x : Input} (h : nextInput s = some (x, t)) :
    ∃ rest, t = { s with inputs := rest } ∧
      (x.isCommand = true → s.inFlight = none ∧ s.inputs = x :: rest) := by
  cases hf : s.inFlight with
  | none =>
    cases hi : s.inputs with
    | nil => simp [nextInput, cmdReady, hf, hi] at h
    | cons y rest =>
      rw [nextInput_idle hf hi] at h
      cases h
      exact ⟨rest, by rw [hf], fun _ => ⟨rfl, rfl⟩⟩
  | some f =>
    rw [nextInput_busy hf] at h
    obtain ⟨p, hp, he⟩ := Option.map_eq_some_iff.mp h
    cases he
    refine ⟨p.2, by rw [hf], fun hc => ?_⟩
    rw [takeEvent_not_command hp] at hc
    cases hc

/-- Everything a step to a next state can be: waiting, a command, a stalled command, the bus accepting, a reset. -/
theorem step_cases {s t : State} (h : step s = .next t) :
    (nextInput s = none ∧ t = s) ∨ ∃ x rest, nextInput s = some (x, { s with inputs := rest }) ∧
      ((∃ w, x = .command w ∧ s.inFlight = none ∧ s.inputs = x :: rest ∧
          runWord w { s with inputs := rest } = .next t) ∨
       (∃ w k u, x = .commandStalled w k ∧ s.inFlight = none ∧ s.inputs = x :: rest ∧
          runWord w { s with inputs := rest } = .next u ∧ t = stallAfter k { s with inputs := rest } u) ∨
       (∃ n, x = .busReady n ∧ t = advance n { s with inputs := rest }) ∨
       (x = .reset ∧ t = resetBlock { s with inputs := rest })) := by
  unfold step at h
  cases hn : nextInput s with
  | none =>
    rw [hn] at h
    cases h
    exact .inl ⟨rfl, rfl⟩
  | some p =>
    obtain ⟨x, v⟩ := p
    obtain ⟨rest, rfl, hc⟩ := nextInput_cases hn
    rw [hn] at h
    refine .inr ⟨x, rest, rfl, ?_⟩
    cases x with
    | command w =>
      obtain ⟨hf, hi⟩ := hc rfl
      exact .inl ⟨w, rfl, hf, hi, h⟩
    | commandStalled w k =>
      obtain ⟨hf, hi⟩ := hc rfl
      simp only at h
      cases hr : runWord w { s with inputs := rest } with
      | next u =>
        rw [hr] at h
        cases h
        exact .inr (.inl ⟨w, k, u, rfl, hf, hi, hr, rfl⟩)
      | fault r => cases r
      | refused r =>
        rw [hr] at h
        cases h
    | busReady n =>
      cases h
      exact .inr (.inr (.inl ⟨n, rfl, rfl⟩))
    | reset =>
      cases h
      exact .inr (.inr (.inr ⟨rfl, rfl⟩))

end Sys2Proof.Machine
end

