-- ==== Sys2Proof/Machine/Asm.lean ====
section
/-! DEFINITION. The textual form of a command (spec/30_encoding.md R75, the spec's decision D23) and the bracketed pixel list
(R76; log 21). -/

namespace Sys2Proof.Machine

/-- ON or OFF. -/
def ledStateText : LedState → String
  | .on => "ON"
  | .off => "OFF"

/-- `[b0,…,b11]` in position order. -/
def pixelText (pixels : BitVec 12) : String :=
  "[" ++ String.intercalate "," ((List.range nLed).map (fun p => if pixels.getLsbD p then "1" else "0")) ++ "]"

/-- One line of the spec's syntax (R75). -/
def instrText : Instr → String
  | .init => "INIT"
  | .setled index state => "SETLED " ++ toString index ++ ", " ++ ledStateText state
  | .setall state => "SETALL " ++ ledStateText state
  | .bargraph value max => "BARGRAPH " ++ toString value ++ ", " ++ toString max
  | .pattern pixels => "PATTERN " ++ pixelText pixels
  | .getbank .a => "GETBANK A"
  | .getbank .b => "GETBANK B"

/-- `pixels = b0 + 2*b1 + … + 2048*b11` (R76). -/
def pixelsOfList (l : List Bool) : BitVec 12 :=
  BitVec.ofNat 12 (l.foldr (fun b n => (if b then 1 else 0) + 2 * n) 0)

end Sys2Proof.Machine
end

