-- ==== Sys2Proof/Tests/Slice0.lean ====
section
/-! SUPPORT. Tests: the well-formedness smoke test, words written out from the spec's encodings, one or two steps a command
with results taken from spec/95_test_vectors.md, and a witness for the hypotheses of each statement. -/

namespace Sys2Proof.Machine.Tests

open Sys2Proof Sys2Proof.Machine

/-- A state with the given banks, otherwise as after reset. -/
def banks (a b : Byte) : State := { State.reset with bankA := a, bankB := b }

/-- The same under a policy for indices 15 and 16. -/
def banksUnder (p : IdxHighPolicy) (a b : Byte) : State :=
  { banks a b with cfg := { Config.default with idxHigh := p } }

/-- `A(d)` of spec/95_test_vectors.md. -/
def cA (d : Byte) : BusWrite := dataCall Config.default .a d

/-- `B(d)` of spec/95_test_vectors.md. -/
def cB (d : Byte) : BusWrite := dataCall Config.default .b d

/-- The trace and the two banks of a next state. -/
def seen : Host.Outcome State Fault Refusal → Option (List BusWrite × Byte × Byte)
  | .next t => some (t.trace, t.bankA, t.bankB)
  | .fault _ => none
  | .refused _ => none

/-- The refusal of an outcome. -/
def stop : Host.Outcome State Fault Refusal → Option Refusal
  | .next _ => none
  | .fault _ => none
  | .refused r => some r

/-- The completions of a next state. -/
def answers : Host.Outcome State Fault Refusal → List (Option Byte)
  | .next t => t.responses
  | .fault _ => []
  | .refused _ => []

/-- A next state, for runs of one step. -/
def nextOf (s : State) : Host.Outcome State Fault Refusal → State
  | .next t => t
  | .fault _ => s
  | .refused _ => s

/-! ### WellFormed: an ill-formed term for each check -/

theorem test_wellFormed_refuses_wide_index : (Instr.setled 256 .on).wellFormed = false := by decide
theorem test_wellFormed_refuses_wide_value : (Instr.bargraph 65536 5).wellFormed = false := by decide
theorem test_wellFormed_refuses_wide_max : (Instr.bargraph 5 65536).wellFormed = false := by decide
theorem test_wellFormed_takes_the_widest : (Instr.setled 255 .off).wellFormed = true ∧
    (Instr.bargraph 65535 65535).wellFormed = true := by decide
theorem test_config_refuses_shared_register :
    ({ Config.default with regDirA := 0x12#8 } : Config).wellFormed = false := by decide
theorem test_config_default : Config.default.wellFormed = true := by decide

/-! ### Decoding: words written out bit by bit from spec/30_encoding.md R62 to R67 -/

theorem test_decode_init :
    decode 0b0000000111011110101011011011111011101111#40 = .instr .init := by decide
theorem test_decode_setled_on :
    decode 0b0000001000000000000000000000000100000011#40 = .instr (.setled 3 .on) := by decide
theorem test_decode_setled_off_ignored_bits :
    decode 0b0000001011111111111111111111111000000011#40 = .instr (.setled 3 .off) := by decide
theorem test_decode_setall_on :
    decode 0b0000001100000000000000000000000000000001#40 = .instr (.setall .on) := by decide
theorem test_decode_setall_off_ignored_bits :
    decode 0b0000001100000000000000000000000000000010#40 = .instr (.setall .off) := by decide
theorem test_decode_bargraph :
    decode 0b0000010000000011111111110000001000000000#40 = .instr (.bargraph 512 1023) := by decide
theorem test_decode_pattern :
    decode 0b0000010100000000000000000000010101010101#40 = .instr (.pattern 0x555#12) := by decide
theorem test_decode_getbank_a :
    decode 0b0000011000000000000000000000000000000000#40 = .instr (.getbank .a) := by decide
theorem test_decode_getbank_b :
    decode 0b0000011000000000000000000000000000000001#40 = .instr (.getbank .b) := by decide
theorem test_decode_reserved : decodeTableWord 40 0x0000000000 = none ∧ decodeTableWord 40 0x0700000000 = none ∧
    decodeTableWord 40 0xFF00000103 = none := by decide
theorem test_encode_canonical : encode (.setled 12 .on) = 0x020000010C#40 ∧ encode (.bargraph 512 1023) = 0x0403FF0200#40 ∧
    encode (.pattern 0xAAA#12) = 0x0500000AAA#40 ∧ encode (.getbank .b) = 0x0600000001#40 := by decide
theorem test_text : instrText (.setled 3 .on) = "SETLED 3, ON" ∧ instrText (.bargraph 512 1023) = "BARGRAPH 512, 1023" := by
  decide
theorem test_pixel_list :
    pixelsOfList [true, false, true, false, true, false, true, false, true, false, true, false] = 0x555#12 := by decide

/-! ### Commands (vectors named in spec/95_test_vectors.md) -/

theorem test_bus_word : (⟨0x20#7, 0x13#8, 0x15#8⟩ : BusWrite).word = 0x1315#16 ∧
    (⟨0x20#7, 0x13#8, 0x15#8⟩ : BusWrite).bytes = [0x13#8, 0x15#8] := by decide
theorem test_M5_M6_clear_then_no_toggle : (clearBit (banks 0x00#8 0x15#8) .b 2).1.bankB = 0x11#8 ∧
    (clearBit (banks 0x00#8 0x11#8) .b 2).1.bankB = 0x11#8 ∧ (clearBit (banks 0x00#8 0x11#8) .b 2).2 = false := by decide
theorem test_GB2_getbank : answers (exec (.getbank .b) (banks 0x2A#8 0x81#8)) = [some 0x81#8] ∧
    seen (exec (.getbank .b) (banks 0x2A#8 0x81#8)) = some ([], 0x2A#8, 0x81#8) := by decide
theorem test_L4_setled_12_on :
    seen (exec (.setled 12 .on) (banks 0x21#8 0x01#8)) = some ([cB 0x21#8], 0x21#8, 0x21#8) := by decide
theorem test_L7_off_when_clear_sends_nothing :
    seen (exec (.setled 12 .off) (banks 0x01#8 0x01#8)) = some ([], 0x01#8, 0x01#8) := by decide
theorem test_A3_setall_on : seen (exec (.setall .on) (banks 0x15#8 0xD5#8)) =
    some ([cA 0x15#8, cA 0x17#8, cA 0x17#8, cA 0x1F#8, cA 0x1F#8, cA 0x3F#8,
      cB 0xD5#8, cB 0xD7#8, cB 0xD7#8, cB 0xDF#8, cB 0xDF#8, cB 0xFF#8], 0x3F#8, 0xFF#8) := by decide +kernel
theorem test_A5_setall_off : seen (exec (.setall .off) (banks 0x15#8 0xD5#8)) =
    some ([cA 0x14#8, cA 0x10#8, cA 0x00#8, cB 0xD4#8, cB 0xD0#8, cB 0xC0#8], 0x00#8, 0xC0#8) := by decide +kernel
theorem test_B10_bargraph : seen (exec (.bargraph 700 1000) (banks 0x2A#8 0x81#8)) =
    some ([cA 0x28#8, cA 0x20#8, cA 0x00#8, cB 0x80#8, cA 0x01#8, cA 0x03#8, cA 0x07#8, cA 0x0F#8, cA 0x1F#8, cA 0x3F#8,
      cB 0x81#8, cB 0x83#8], 0x3F#8, 0x83#8) := by decide +kernel
theorem test_S8_rounding : scale .floor 500 1023 = 5 ∧ scale .halfUp 500 1023 = 6 := by decide
theorem test_P4_pattern : seen (exec (.pattern 0xF0F#12) (banks 0x2A#8 0x81#8)) =
    some ([cA 0x2B#8, cA 0x2B#8, cA 0x2F#8, cA 0x2F#8, cA 0x0F#8, cB 0x80#8, cB 0x84#8, cB 0x8C#8, cB 0x9C#8, cB 0xBC#8],
      0x0F#8, 0xBC#8) := by decide +kernel
theorem test_I1_init_from_reset : seen (exec .init State.reset) =
    some ([⟨0x20#7, 0x00#8, 0x00#8⟩, ⟨0x20#7, 0x01#8, 0x00#8⟩, ⟨0x20#7, 0x0C#8, 0xFF#8⟩, ⟨0x20#7, 0x0D#8, 0xFF#8⟩],
      0x00#8, 0x00#8) := by decide +kernel
theorem test_I2_init_with_one_led : seen (exec .init (banks 0x00#8 0x04#8)) =
    some (configCalls Config.default ++ [cB 0x00#8], 0x00#8, 0x00#8) := by decide +kernel
theorem test_step_runs_a_word_from_reset :
    seen (step (State.reset.withFetchWord 40 0x0200000103)) = some ([cA 0x04#8], 0x04#8, 0x00#8) := by decide
theorem test_X2_reserved_word :
    seen (step ((banks 0x15#8 0xD5#8).withFetchWord 40 0x0700000001)) = some ([], 0x15#8, 0xD5#8) := by decide
theorem test_X3_reset : seen (step { banks 0x15#8 0xD5#8 with inputs := [.reset] }) = some ([], 0x00#8, 0x00#8) := by decide

/-! ### Witnesses: the hypotheses of each statement are met together -/

/-- SETALL ON, stalled after three calls, then the input given. -/
def stalledAllOn (x : Input) : State :=
  { State.reset with inputs := [.commandStalled (encode (.setall .on)) 3, x] }

/-- The same, after the first step: three calls sent, the fourth held. -/
def busy (x : Input) : State := nextOf State.reset (step (stalledAllOn x))

/-- LED 3 lit by a command, then the inputs given. -/
def ledThree (l : List Input) : State :=
  { nextOf State.reset (exec (.setled 3 .on) State.reset) with inputs := l }

/-- SETALL ON in flight with its fourth call held, SETLED 3 waiting, then the input given. -/
def busyWaiting (x : Input) : State :=
  { busy x with inputs := [.command 0x0200000103#40, x] }

theorem test_reset_overrides_behind_a_waiting_command :
    seen (step (busyWaiting .reset)) = some ([], 0x00#8, 0x00#8) ∧
    (nextOf State.reset (step (busyWaiting .reset))).inputs = [.command 0x0200000103#40] := by decide +kernel
theorem test_bus_goes_on_behind_a_waiting_command :
    (nextOf State.reset (step (busyWaiting (.busReady 1)))).trace = [cA 0x01#8, cA 0x03#8, cA 0x07#8, cA 0x0F#8] ∧
    (nextOf State.reset (step (busyWaiting (.busReady 1)))).inputs = [.command 0x0200000103#40] := by decide +kernel

theorem witness_ResetInputZeroesTheBanksAndSendsNothing :
    (busyWaiting .reset).inputs = [.command 0x0200000103#40] ++ .reset :: [] ∧
    (∀ x ∈ [Input.command 0x0200000103#40], x.isCommand = true) ∧ (busyWaiting .reset).inFlight ≠ none ∧
    ({ State.reset with inputs := [.reset] } : State).inputs = [] ++ .reset :: [] := by decide
theorem witness_ResetDuringACommandAbandonsIt :
    (stalledAllOn .reset).inFlight = none ∧
    (stalledAllOn .reset).inputs = .commandStalled (encode (.setall .on)) 3 :: ([] ++ .reset :: []) ∧
    decode (encode (.setall .on)) = .instr (.setall .on) ∧
    ∃ u, exec (.setall .on) { stalledAllOn .reset with inputs := [.reset] } = .next u ∧
      3 < (newCalls (stalledAllOn .reset) u).length :=
  ⟨by decide, by decide, by decide, _, rfl, by decide⟩
theorem witness_AnyCommandIsAcceptedFirstAfterReset :
    (Instr.setled 255 .on).wellFormed = true ∧ Config.default.idxHigh ≠ .refuse := by decide
theorem witness_BlockWaitsWithoutInputAndWhileBusy : State.reset.inputs = [] ∧
    (busy (.command (encode .init))).inFlight ≠ none ∧
    (∀ x ∈ (busy (.command (encode .init))).inputs, x.isCommand = true) ∧
    (busyWaiting (.busReady 1)).inFlight ≠ none ∧
    (busyWaiting (.busReady 1)).inputs = [.command 0x0200000103#40] ++ .busReady 1 :: [] := by decide
theorem witness_StepRunsTheDecodedCommand :
    (State.reset.withFetchWord 40 0x0200000103).inFlight = none ∧
    (State.reset.withFetchWord 40 0x0200000103).inputs = .command 0x0200000103#40 :: [] ∧
    decode 0x0200000103#40 = .instr (.setled 3 .on) := by decide
theorem witness_ReservedOpcodesCompleteAndChangeNothing :
    (State.reset.withFetchWord 40 0x0700000001).inFlight = none ∧
    (State.reset.withFetchWord 40 0x0700000001).inputs = .command 0x0700000001#40 :: [] ∧
    7 ≤ (cmdOp 0x0700000001#40).toNat ∧ (cmdOp 0x0000000001#40).toNat = 0 ∧ 7 ≤ (cmdOp 0xFF00000000#40).toNat := by decide
theorem witness_DecodeOfEncodeIsTheCommand :
    (Instr.bargraph 65535 65535).wellFormed = true ∧ (Instr.setled 255 .on).wellFormed = true := by decide
theorem witness_EncodeOfDecodeClearsTheIgnoredBits :
    decode 0x02FFFFFE03#40 = .instr (.setled 3 .off) ∧ (Instr.setled 3 .off).wellFormed = true := by decide
theorem witness_OperandSlicesAndCanonicalWordsInNumbers :
    (cmdOp 0x01DEADBEEF#40).toNat = 1 ∧ (cmdOp 0x02FFFFFFFF#40).toNat = 2 ∧ (cmdOp 0x03FFFFFFFF#40).toNat = 3 ∧
    (cmdOp 0x04FFFFFFFF#40).toNat = 4 ∧ (cmdOp 0x05FFFFFFFF#40).toNat = 5 ∧ (cmdOp 0x06FFFFFFFF#40).toNat = 6 := by decide
theorem witness_MaskIsTheTruncatedPowerOfTwo : acceptsIndex .truncate 16 = true ∧ ledPos 16 = 9 ∧
    acceptsIndex .ignore 14 = true ∧ ledPos 14 = 7 ∧ IdxHighPolicy.ignore ≠ .truncate := by decide
theorem witness_ClearBitIsGuardedExclusiveOrAndNeverToggles :
    readBank (banks 0x00#8 0x15#8) .b &&& mask 2 ≠ 0#8 ∧ readBank (banks 0x00#8 0x11#8) .b &&& mask 2 = 0#8 ∧
    mask 8 = 0x00#8 := by decide
theorem witness_SetledOutsideTheGateDoesNothing :
    inGate 0 = false ∧ inGate 17 = false ∧ inGate 255 = false ∧ inGate 1 = true ∧ inGate 16 = true := by decide
theorem witness_IndexMapsToBankAndPosition :
    ledBank 1 = .a ∧ ledPos 1 = 0 ∧ ledBank 6 = .a ∧ ledPos 6 = 5 ∧ ledBank 7 = .b ∧ ledPos 7 = 0 ∧ ledPos 16 = 9 := by decide
theorem witness_SetledOnAlwaysSendsTheUpdatedByte :
    seen (exec (.setled 6 .on) State.reset) = some ([cA 0x20#8], 0x20#8, 0x00#8) ∧
    seen (exec (.setled 7 .on) State.reset) = some ([cB 0x01#8], 0x00#8, 0x01#8) ∧
    seen (exec (.setled 16 .on) (banks 0x00#8 0xC0#8)) = some ([cB 0xC0#8], 0x00#8, 0xC0#8) ∧
    State.reset.cfg.idxHigh = .truncate := by decide
theorem witness_SetledOffSendsOnlyWhenTheBitWasSet :
    seen (exec (.setled 1 .off) (banks 0x01#8 0x00#8)) = some ([cA 0x00#8], 0x00#8, 0x00#8) ∧
    seen (exec (.setled 14 .off) (banks 0x00#8 0xC0#8)) = some ([cB 0x40#8], 0x00#8, 0x40#8) ∧
    seen (exec (.setled 15 .off) (banks 0x00#8 0xFF#8)) = some ([], 0x00#8, 0xFF#8) := by decide
theorem witness_SetledTouchesOneBankWithAtMostOneCall : ∃ t, exec (.setled 3 .off) (banks 0x04#8 0x01#8) = .next t :=
  ⟨_, rfl⟩
theorem witness_SetledShowsItsStateInItsOwnBitOnly :
    ledLit (nextOf State.reset (exec (.setled 14 .on) State.reset)) 14 = true ∧
    ledLit (nextOf State.reset (exec (.setled 1 .off) (banks 0x03#8 0x00#8))) 1 = false := by decide
theorem witness_OffTwiceSendsOnceOnTwiceSendsTwice :
    ledLit (banks 0x04#8 0x00#8) 3 = true ∧ ledLit (banks 0x00#8 0x00#8) 3 = false := by decide
theorem witness_HighIndicesFollowTheirPolicy :
    seen (exec (.setled 15 .on) (banksUnder .truncate 0x00#8 0xC0#8)) = some ([cB 0xC0#8], 0x00#8, 0xC0#8) ∧
    seen (exec (.setled 15 .on) (banksUnder .ignore 0x00#8 0xC0#8)) = some ([], 0x00#8, 0xC0#8) ∧
    stop (exec (.setled 16 .off) (banksUnder .refuse 0x00#8 0xC0#8)) = some .highIndexRefused := by decide
theorem witness_BankBHighBitsChangeOnlyBy13And14 :
    (∃ t, exec (.setall .off) (banks 0x3F#8 0xFF#8) = .next t) ∧ (banks 0x3F#8 0xFF#8).cfg.wellFormed = true ∧
    (∀ st, Instr.setall .off ≠ .setled 13 st) ∧ (∀ st, Instr.setall .off ≠ .setled 14 st) ∧
    ∃ t, runAll [.setall .on] { State.reset with cfg := Config.default } = .next t :=
  ⟨⟨_, rfl⟩, by decide, nofun, nofun, _, rfl⟩
theorem witness_SequencesOfSetledsShowTheLastStateOfEachLed :
    ∀ p ∈ [(1, LedState.on), (14, .on), (1, .off)], 1 ≤ p.1 ∧ p.1 ≤ 14 := by decide
theorem witness_AllOnThenAllOffResendsBothBanks : (banks 0x15#8 0xD5#8).cfg.wellFormed = true := by decide
theorem witness_BargraphGuardIsExactlySetallOff : barGuard 1024 1023 = true ∧ barGuard 0 0 = true ∧
    barGuard 1023 1023 = false := by decide
theorem witness_BargraphLightsExactlyOneToN :
    (1023 < 65536 ∧ (512 : Nat) ≤ 1023 ∧ (1023 : Nat) ≠ 0) ∧ (1024 : Nat) > 1023 ∧ State.reset.cfg.barRound = .floor ∧ 512 * 12 / 1023 = 6 ∧
    (500 * 24 + 1023) / (2 * 1023) = 6 := by decide
theorem witness_ScaleIsBoundedMonotoneAndExactAtItsEnds : scale .floor 65535 65535 = 12 ∧ scale .floor 65534 65535 = 11 ∧
    scale .halfUp 4 5 = 10 ∧ scale .floor 85 1023 = 0 ∧ scale .floor 86 1023 = 1 := by decide
theorem witness_BargraphRedrawsTheBarFromDark :
    (1023 < 65536 ∧ (512 : Nat) ≤ 1023) ∧
    (seen (exec (.bargraph 512 1023) (banks 0x3F#8 0x00#8))).isSome = true := by decide
theorem witness_InitTwiceLeavesTheSameEndState :
    (banks 0x3F#8 0xFF#8).cfg.wellFormed = true ∧ (banks 0x3F#8 0xFF#8).bankA &&& highBits = 0x00#8 := by decide
theorem witness_InitFromResetLeavesTheDataRegistersUnwritten : Config.default.wellFormed = true := by decide
theorem witness_EveryCommandCompletes :
    (Instr.setled 16 .on).wellFormed = true ∧ State.reset.cfg.idxHigh ≠ .refuse := by decide
theorem witness_EveryCommandCompletes_under_refuse : (Instr.setled 14 .on).wellFormed = true ∧
    (banksUnder .refuse 0x00#8 0x00#8).cfg.idxHigh = .refuse ∧
    ∀ st, Instr.setled 14 .on ≠ .setled 15 st ∧ Instr.setled 14 .on ≠ .setled 16 st :=
  ⟨by decide, by decide, fun _ => ⟨nofun, nofun⟩⟩
theorem witness_StepsAlwaysGoOn : (busy .reset).cfg.idxHigh ≠ .refuse := by decide
theorem witness_OperandsWiderThanTheirPortAreRefused : (Instr.setled 256 .on).wellFormed = false ∧
    stop (exec (.bargraph 1 65536) State.reset) = some .operandTooWide := by decide
theorem witness_FrameOfEveryCommand : ∃ t, exec .init (banks 0x3F#8 0xFF#8) = .next t := ⟨_, rfl⟩
theorem witness_OneCompletionForEachCommand : ∃ t, exec (.getbank .b) (banks 0x3F#8 0xFF#8) = .next t := ⟨_, rfl⟩
theorem witness_ResultsDoNotDependOnTheDevice : ∃ t, exec (.pattern 0x555#12) (banks 0x3F#8 0x00#8) = .next t := ⟨_, rfl⟩
theorem witness_BankAHighBitsNeverChange : (∃ t, exec (.setall .on) (banks 0x00#8 0x00#8) = .next t) ∧
    (banks 0x00#8 0x00#8).bankA &&& highBits = 0x00#8 := ⟨⟨_, rfl⟩, by decide⟩
theorem witness_CallCountsOfEachCommand : ∃ t, exec (.bargraph 9 12) (banks 0x2A#8 0x81#8) = .next t := ⟨_, rfl⟩
theorem witness_EveryCommandKeepsCacheAndDeviceConsistent :
    State.reset.cfg.wellFormed = true ∧ (∀ id, Consistent State.reset id) ∧ ∃ t, exec (.setall .on) State.reset = .next t :=
  ⟨by decide, fun id => .inl (by cases id <;> decide), _, rfl⟩

/-- LED 3 lit, the block idle: the invariant, with a written data register. -/
theorem witness_inv_idle : Inv (ledThree []) where
  cfg_wf := by decide
  bankA_high := by decide
  dev_wf := by decide
  dev_replay := by decide
  calls_legal := by decide
  holds_call := nofun
  consistent := by
    intro id
    cases id with
    | a => exact .inr (by decide)
    | b => exact .inl (by decide)

/-- SETALL ON in flight, the fourth call held: the invariant. -/
theorem witness_inv_busy : Inv (busy (.busReady 20)) where
  cfg_wf := by decide
  bankA_high := by decide
  dev_wf := by decide
  dev_replay := by decide
  calls_legal := by decide
  holds_call := by
    intro f h
    cases h
    decide
  consistent := by
    intro id
    cases id with
    | a => exact .inr (by decide)
    | b => exact .inr (by decide)

theorem witness_ResetMeetsTheInvariant : Config.default.wellFormed = true := by decide
theorem witness_EveryStepKeepsTheInvariant : ∃ t, Inv (busy (.busReady 20)) ∧ step (busy (.busReady 20)) = .next t :=
  ⟨_, witness_inv_busy, rfl⟩
theorem witness_StalledCommandEndsAsTheUnstalledOne :
    (stalledAllOn (.busReady 9)).cfg.wellFormed = true ∧ (stalledAllOn (.busReady 9)).inFlight = none ∧
    (stalledAllOn (.busReady 9)).inputs = .commandStalled (encode (.setall .on)) 3 :: .busReady 9 :: [] ∧
    decode (encode (.setall .on)) = .instr (.setall .on) ∧
    ∃ u, exec (.setall .on) { stalledAllOn (.busReady 9) with inputs := [] } = .next u ∧
      (newCalls (stalledAllOn (.busReady 9)) u).length ≤ 3 + 9 :=
  ⟨by decide, by decide, by decide, by decide, _, rfl, by decide⟩
theorem witness_StalledCommandAdvancesCallByCall :
    (stalledAllOn (.busReady 2)).inFlight = none ∧ (stalledAllOn (.busReady 2)).cfg.wellFormed = true ∧
    (stalledAllOn (.busReady 2)).inputs = .commandStalled (encode (.setall .on)) 3 :: ([] ++ .busReady 2 :: []) ∧
    (∃ u, exec (.setall .on) { stalledAllOn (.busReady 2) with inputs := [] ++ [] } = .next u ∧
      3 + 2 < (newCalls (stalledAllOn (.busReady 2)) u).length) ∧
    decode 0x0700000000#40 = .invalid 0x07#8 :=
  ⟨by decide, by decide, by decide, ⟨_, rfl, by decide⟩, by decide⟩
theorem witness_DeviceHoldsTheBankOnceWritten : Inv (ledThree []) ∧ (ledThree []).inFlight = none ∧
    (ledThree []).dev.read (dataAddr (ledThree []).cfg .a) ≠ none := ⟨witness_inv_idle, by decide, by decide⟩
theorem witness_InitAfterResetDoesNotRepairTheDevice :
    Inv (ledThree [.reset, .command (encode .init)]) ∧ (ledThree [.reset, .command (encode .init)]).inFlight = none ∧
    (ledThree [.reset, .command (encode .init)]).inputs = .reset :: .command (encode .init) :: [] ∧
    readBank (ledThree [.reset, .command (encode .init)]) .a ≠ 0x00#8 := ⟨witness_inv_idle.with_inputs (by decide) _, by decide, by decide, by decide⟩

end Sys2Proof.Machine.Tests
end

section
/-! PROOF SUPPORT. The register identifiers are distinct keys of the device shadow, and the addresses calls go to. -/

namespace Sys2Proof.Machine

/-- Distinct identifiers (R5): the identifier byte tells the register. -/
theorem regByte_inj {c : Config} (hc : c.wellFormed = true) {r q : Reg} : regByte c r = regByte c q ↔ r = q := by
  refine ⟨fun h => ?_, fun h => h ▸ rfl⟩
  have hn : (([.dataA, .dataB, .dirA, .dirB, .pullupA, .pullupB] : List Reg).map (regByte c)).Nodup :=
    of_decide_eq_true hc
  exact List.inj_on_of_nodup_map hn (by cases r <;> decide) (by cases q <;> decide) h

/-- A call reads and writes no bank register (R40). -/
@[simp] theorem readBank_busWrite (s : State) (r : Reg) (d : Byte) (id : BankId) :
    readBank (busWrite s r d) id = readBank s id := by cases id <;> rfl

@[simp] theorem readBank_complete (s : State) (r : Option Byte) (id : BankId) :
    readBank (complete s r) id = readBank s id := by cases id <;> rfl

/-- The two data registers are told apart by their banks. -/
theorem dataReg_inj {x y : BankId} : dataReg x = dataReg y ↔ x = y := by
  cases x <;> cases y <;> decide

/-- A write to a bank's data register is read back at that bank's address. -/
@[simp] theorem busWrite_read_dataAddr_same (s : State) (id : BankId) (d : Byte) :
    (busWrite s (dataReg id) d).dev.read (dataAddr s.cfg id) = some d :=
  Memory.read_write_same _ _ _

/-- A write to any other register leaves what was last sent for a bank. -/
theorem busWrite_read_dataAddr_other {s : State} (hc : s.cfg.wellFormed = true) {r : Reg} {id : BankId}
    (hr : r ≠ dataReg id) (d : Byte) :
    (busWrite s r d).dev.read (dataAddr s.cfg id) = s.dev.read (dataAddr s.cfg id) := by
  refine Memory.read_write_other _ _ _ _ fun h => ?_
  obtain ⟨-, hreg⟩ := busAddr_inj.mp h
  exact hr ((regByte_inj hc).mp hreg).symm

/-- The calls of a run are what it appended to the trace. -/
theorem newCalls_of_trace {s t : State} {l : List BusWrite} (h : t.trace = s.trace ++ l) : newCalls s t = l := by
  simp [newCalls, h]

end Sys2Proof.Machine
end

section
/-! PROOF SUPPORT. What one bit of a bank does under `setLed`, and an induction over a command that also tells which indices
the command drives: its own operand for `SETLED`, at most `nLed` for every other command. -/

namespace Sys2Proof.Machine

/-- `Mask(pos)` has the bit `pos` alone (R81). -/
theorem getLsbD_mask {q : Nat} (hq : q < 8) (pos : Nat) : (mask pos).getLsbD q = decide (q = pos) := by
  rw [mask, trunc8, BitVec.getLsbD_ofNat, Nat.one_shiftLeft, Nat.testBit_two_pow]
  simp [hq, eq_comm]

/-- `setLed` changes no bit but the one its index maps to (R96). -/
theorem setLed_getLsbD_other (s : State) {k q : Nat} (st : LedState) {id : BankId} (hq : q < 8)
    (hk : ledBank k = id → ledPos k ≠ q) :
    (readBank (setLed s k st) id).getLsbD q = (readBank s id).getLsbD q := by
  obtain h | ⟨-, v, h, hv⟩ := setLed_cases s k st
  · rw [h]
  · rw [h, readBank_busWrite]
    by_cases hid : ledBank k = id
    · subst hid
      have hbit : (mask (ledPos k)).getLsbD q = false := by
        simpa [getLsbD_mask hq] using (hk rfl).symm
      obtain ⟨-, rfl⟩ | ⟨-, -, rfl⟩ := hv <;> simp [hbit]
    · rw [readBank_writeBank_other _ _ _ _ (Ne.symm hid)]

/-- Bit `q` of Bank B is the bit of index `q + 7` alone (R92). -/
theorem setLed_bankB_getLsbD_other (s : State) {k q : Nat} (st : LedState) (hq : q < 8) (hk : k ≠ q + 7) :
    (setLed s k st).bankB.getLsbD q = s.bankB.getLsbD q := by
  refine setLed_getLsbD_other s (id := .b) st hq fun hb => ?_
  have h6 : ¬ k ≤ ledsPerBank := fun h => by simp [ledBank, h] at hb
  have hpos : ledPos k = k - ledsPerBank - 1 := if_neg h6
  simp only [ledsPerBank] at h6 hpos
  omega

/-- Past the guard the scaler is at most the number of LEDs (R106). -/
theorem scale_le_nLed (r : BarRound) {value max : Nat} (h : barGuard value max = false) :
    scale r value max ≤ nLed := by
  simp only [barGuard, Bool.or_eq_false_iff, decide_eq_false_iff_not, not_lt] at h
  obtain ⟨hle, hne⟩ := h
  cases r with
  | floor =>
    refine Nat.div_le_of_le_mul ?_
    rw [Nat.mul_comm max]
    simp only [nLed]
    omega
  | halfUp =>
    refine Nat.lt_succ_iff.mp (Nat.div_lt_of_lt_mul ?_)
    simp only [nLed]
    omega

/-- What every turn of a loop keeps for the indices of its range, the loop keeps. -/
theorem forRange_keeps_in_range {P : State → Prop} {body : State → Nat → State} {first count : Nat}
    (hb : ∀ t i, first ≤ i → i < first + count → P t → P (body t i)) {s : State} (hs : P s) :
    P (forRange first count body s) := by
  induction count generalizing first s with
  | zero => exact hs
  | succ n ih =>
    rw [forRange_succ]
    exact ih (fun t i h1 h2 => hb t i (by omega) (by omega)) (hb s first le_rfl (by omega) hs)

/-- `SETALL` keeps what the operation keeps on the indices 1..12. -/
theorem setAll_keeps_in_range {P : State → Prop} {st : LedState}
    (hl : ∀ t k, 1 ≤ k → k ≤ nLed → P t → P (setLed t k st)) {s : State} (hs : P s) : P (setAll s st) :=
  forRange_keeps_in_range (fun t k h1 h2 => hl t k h1 (by omega)) hs

/-- `BARGRAPH` keeps what the operation keeps on the indices 1..12. -/
theorem barGraph_keeps_in_range {P : State → Prop}
    (hl : ∀ t k st, 1 ≤ k → k ≤ nLed → P t → P (setLed t k st)) {s : State} (value max : Nat) (hs : P s) :
    P (barGraph s value max) := by
  have hoff : P (setAll s .off) := setAll_keeps_in_range (fun t k => hl t k .off) hs
  unfold barGraph
  split
  case isTrue => exact hoff
  case isFalse hg =>
    have hn := scale_le_nLed s.cfg.barRound (Bool.eq_false_iff.mpr hg)
    exact forRange_keeps_in_range (fun t k h1 h2 => hl t k .on h1 (by omega)) hoff

/-- `PATTERN` keeps what the operation keeps on the indices 1..12. -/
theorem showPattern_keeps_in_range {P : State → Prop}
    (hl : ∀ t k st, 1 ≤ k → k ≤ nLed → P t → P (setLed t k st)) {s : State} (pixels : BitVec 12) (hs : P s) :
    P (showPattern s pixels) :=
  forRange_keeps_in_range (fun t p _ h2 => hl t (p + 1) _ (by omega) (by omega)) hs

/-- `exec_keeps` with the indices a command drives: `ok` holds of 1..12, and of the operand where the command is `SETLED`. -/
theorem exec_keeps_on_indices {P : State → Prop} {ok : Nat → Prop} (hok : ∀ k, 1 ≤ k → k ≤ nLed → ok k)
    (hl : ∀ t k st, ok k → P t → P (setLed t k st)) (hc : ∀ t, P t → P (configureDevice t))
    (hr : ∀ t r, P t → P (complete t r)) {i : Instr} (hi : ∀ k st, i = .setled k st → ok k) {s t : State}
    (h : exec i s = .next t) (hs : P s) : P t := by
  have hled : ∀ t k st, 1 ≤ k → k ≤ nLed → P t → P (setLed t k st) := fun t k st h1 h2 => hl t k st (hok k h1 h2)
  cases i with
  | init =>
    cases h
    exact hr _ _ (setAll_keeps_in_range (fun t k => hled t k .off) (hc s hs))
  | setled index state =>
    simp only [exec, execSetled] at h
    split at h
    · split at h
      · cases h
      · cases h
        exact hr _ _ (hl _ _ _ (hi index state rfl) hs)
    · cases h
  | setall state =>
    cases h
    exact hr _ _ (setAll_keeps_in_range (fun t k => hled t k state) hs)
  | bargraph value max =>
    simp only [exec, execBargraph] at h
    split at h
    · cases h
      exact hr _ _ (barGraph_keeps_in_range hled value max hs)
    · cases h
  | pattern pixels =>
    cases h
    exact hr _ _ (showPattern_keeps_in_range hled pixels hs)
  | getbank id =>
    cases h
    exact hr _ _ hs

/-- What every command of a list keeps, the list keeps. -/
theorem runAll_keeps {P : State → Prop} {l : List Instr}
    (hl : ∀ i ∈ l, ∀ s t, exec i s = .next t → P s → P t) {s t : State} (h : runAll l s = .next t) (hs : P s) :
    P t := by
  induction l generalizing s with
  | nil =>
    cases h
    exact hs
  | cons i l ih =>
    simp only [runAll] at h
    split at h
    · rename_i u hu
      exact ih (fun j hj => hl j (List.mem_cons_of_mem _ hj)) h (hl i (List.mem_cons_self ..) s u hu hs)
    · cases h
    · cases h

end Sys2Proof.Machine
end

section
/-! PROOFS. The state: reset (R36), cache and device consistent (R33), and the two unwired bits of Bank B (R24). -/

namespace Sys2Proof.Machine

/-- Settles O1: the fields of the reset state, whose shadow lists no address. -/
theorem resetLeavesBanksZeroShadowUnwrittenTraceEmpty :
    Obligations.ResetLeavesBanksZeroShadowUnwrittenTraceEmpty :=
  ⟨⟨rfl, rfl, rfl, fun _ => rfl⟩, fun _ => ⟨rfl, rfl, rfl, fun _ => rfl⟩⟩

/-! ### R33 -/

/-- A write to a register that mirrors no bank keeps a bank consistent. -/
theorem Consistent.after_busWrite {s : State} {id : BankId} (h : Consistent s id)
    (hc : s.cfg.wellFormed = true) {r : Reg} (hr : r ≠ dataReg id) (d : Byte) : Consistent (busWrite s r d) id := by
  unfold Consistent
  rw [busWrite_cfg, busWrite_read_dataAddr_other hc hr, readBank_busWrite]
  exact h

/-- A bank whose new value is sent to its data register becomes consistent (R33: "with the new value immediately
afterwards"). -/
theorem consistent_of_write_and_send (s : State) (id : BankId) (v : Byte) :
    Consistent (busWrite (writeBank s id v) (dataReg id) v) id := by
  refine .inr ?_
  rw [readBank_busWrite, readBank_writeBank_same]
  exact busWrite_read_dataAddr_same _ id v

/-- Writing one bank register leaves the other bank consistent. -/
theorem Consistent.after_writeBank {s : State} {id other : BankId} (h : Consistent s other) (hne : other ≠ id)
    (v : Byte) : Consistent (writeBank s id v) other := by
  unfold Consistent
  rw [writeBank_cfg, writeBank_dev, readBank_writeBank_other _ _ _ _ hne]
  exact h

/-- Both banks consistent, under distinct register identifiers (R5): what every operation keeps. -/
structure BothConsistent (s : State) : Prop where
  cfg_wf : s.cfg.wellFormed = true
  consistent : ∀ id, Consistent s id

theorem BothConsistent.after_setLed {s : State} (h : BothConsistent s) (k : Nat) (st : LedState) :
    BothConsistent (setLed s k st) := by
  refine ⟨by rw [setLed_cfg]; exact h.cfg_wf, fun id => ?_⟩
  obtain e | ⟨-, v, e, -⟩ := setLed_cases s k st
  · rw [e]
    exact h.consistent id
  · rw [e]
    by_cases hid : id = ledBank k
    · subst hid
      exact consistent_of_write_and_send s _ v
    · exact ((h.consistent id).after_writeBank hid v).after_busWrite (by rw [writeBank_cfg]; exact h.cfg_wf)
        (fun hr => hid (dataReg_inj.mp hr).symm) v

/-- `INIT`'s configuration writes go to no data register. -/
theorem BothConsistent.after_configureDevice {s : State} (h : BothConsistent s) :
    BothConsistent (configureDevice s) where
  cfg_wf := h.cfg_wf
  consistent id := by
    have hne : ∀ r ∈ [Reg.dirA, .dirB, .pullupA, .pullupB], r ≠ dataReg id := by cases id <;> decide
    have h1 := (h.consistent id).after_busWrite h.cfg_wf (hne .dirA (by decide)) dirInit
    have h2 := h1.after_busWrite h.cfg_wf (hne .dirB (by decide)) dirInit
    have h3 := h2.after_busWrite h.cfg_wf (hne .pullupA (by decide)) pullupInit
    exact h3.after_busWrite h.cfg_wf (hne .pullupB (by decide)) pullupInit

theorem BothConsistent.after_complete {s : State} (h : BothConsistent s) (r : Option Byte) :
    BothConsistent (complete s r) where
  cfg_wf := h.cfg_wf
  consistent id := by
    unfold Consistent
    rw [readBank_complete]
    exact h.consistent id

theorem BothConsistent.after_exec {s t : State} {i : Instr} (h : BothConsistent s) (he : exec i s = .next t) :
    BothConsistent t :=
  exec_keeps (P := BothConsistent) (fun _ k st ht => ht.after_setLed k st) (fun _ ht => ht.after_configureDevice)
    (fun _ r ht => ht.after_complete r) he h

/-- Settles O50: at reset nothing is sent and both banks are zero; every operation a command is made of keeps both banks
consistent. -/
theorem everyCommandKeepsCacheAndDeviceConsistent : Obligations.EveryCommandKeepsCacheAndDeviceConsistent := by
  refine ⟨fun c id => .inl ⟨rfl, by cases id <;> rfl⟩, fun s t i hc hs he => ?_⟩
  exact (BothConsistent.after_exec ⟨hc, hs⟩ he).consistent

/-! ### R24 -/

/-- Two bytes agree under `highBits` when their bits 6 and 7 agree. -/
theorem and_highBits_eq_iff {v w : Byte} :
    v &&& highBits = w &&& highBits ↔ v.getLsbD 6 = w.getLsbD 6 ∧ v.getLsbD 7 = w.getLsbD 7 := by
  constructor
  · intro h
    have hbit : ∀ q, (v &&& highBits).getLsbD q = (w &&& highBits).getLsbD q := fun q => by rw [h]
    exact ⟨by simpa [highBits] using hbit 6, by simpa [highBits] using hbit 7⟩
  · rintro ⟨h6, h7⟩
    have hmask : ∀ q < 6, highBits.getLsbD q = false := by decide
    refine BitVec.eq_of_getLsbD_eq fun q hq => ?_
    rw [BitVec.getLsbD_and, BitVec.getLsbD_and]
    obtain hlow | rfl | rfl : q < 6 ∨ q = 6 ∨ q = 7 := by omega
    · rw [hmask q hlow, Bool.and_false, Bool.and_false]
    · rw [h6]
    · rw [h7]

/-- Without the indices 13 and 14 the two unwired bits of Bank B stay. -/
theorem setLed_bankB_highBits (s : State) {k : Nat} (st : LedState) (h13 : k ≠ 13) (h14 : k ≠ 14) :
    (setLed s k st).bankB &&& highBits = s.bankB &&& highBits :=
  and_highBits_eq_iff.mpr
    ⟨setLed_bankB_getLsbD_other s st (by decide) h13, setLed_bankB_getLsbD_other s st (by decide) h14⟩

/-- From `s` to `t` the bits 7 and 6 of Bank B stay, and every call to its data register carries them as they are. -/
structure CarriesHighBits (s t : State) : Prop where
  cfg_eq : t.cfg = s.cfg
  bank_eq : t.bankB &&& highBits = s.bankB &&& highBits
  sent : ∃ calls, t.trace = s.trace ++ calls ∧
    ∀ c ∈ calls, c.reg = s.cfg.regDataB → c.data &&& highBits = s.bankB &&& highBits

theorem CarriesHighBits.refl (s : State) : CarriesHighBits s s := ⟨rfl, rfl, [], by simp, by simp⟩

/-- One more call, which carries the two bits if it goes to Bank B's data register. -/
theorem CarriesHighBits.after_busWrite {s t : State} (h : CarriesHighBits s t) (hc : s.cfg.wellFormed = true) {r : Reg}
    {d : Byte} (hd : r = .dataB → d &&& highBits = s.bankB &&& highBits) : CarriesHighBits s (busWrite t r d) := by
  obtain ⟨hcfg, hbank, calls, htrace, hcalls⟩ := h
  refine ⟨hcfg, hbank, calls ++ [callOf t.cfg r d], by simp [htrace], fun c hmem hreg => ?_⟩
  rcases List.mem_append.mp hmem with hold | hnew
  · exact hcalls c hold hreg
  · obtain rfl := List.mem_singleton.mp hnew
    rw [hcfg] at hreg
    exact hd ((regByte_inj hc (q := .dataB)).mp hreg)

/-- A new value of a bank that leaves the two bits of Bank B. -/
theorem CarriesHighBits.after_writeBank {s t : State} (h : CarriesHighBits s t) {id : BankId} {v : Byte}
    (hv : id = .b → v &&& highBits = s.bankB &&& highBits) : CarriesHighBits s (writeBank t id v) := by
  obtain ⟨hcfg, hbank, hsent⟩ := h
  cases id with
  | a => exact ⟨hcfg, hbank, hsent⟩
  | b => exact ⟨hcfg, hv rfl, hsent⟩

theorem CarriesHighBits.after_setLed {s t : State} (h : CarriesHighBits s t) (hc : s.cfg.wellFormed = true) {k : Nat}
    (st : LedState) (h13 : k ≠ 13) (h14 : k ≠ 14) : CarriesHighBits s (setLed t k st) := by
  have hkeep := setLed_bankB_highBits t st h13 h14
  obtain e | ⟨-, v, e, -⟩ := setLed_cases t k st
  · rwa [e]
  · rw [e] at hkeep ⊢
    have hv : ledBank k = .b → v &&& highBits = s.bankB &&& highBits := by
      intro hb
      rw [hb] at hkeep
      exact hkeep.trans h.bank_eq
    exact (h.after_writeBank hv).after_busWrite hc fun hr => hv (dataReg_inj (y := .b) |>.mp hr)

theorem CarriesHighBits.after_configureDevice {s t : State} (h : CarriesHighBits s t) (hc : s.cfg.wellFormed = true) :
    CarriesHighBits s (configureDevice t) := by
  have h1 := h.after_busWrite hc (r := .dirA) (d := dirInit) nofun
  have h2 := h1.after_busWrite hc (r := .dirB) (d := dirInit) nofun
  have h3 := h2.after_busWrite hc (r := .pullupA) (d := pullupInit) nofun
  exact h3.after_busWrite hc (r := .pullupB) (d := pullupInit) nofun

theorem CarriesHighBits.after_complete {s t : State} (h : CarriesHighBits s t) (r : Option Byte) :
    CarriesHighBits s (complete t r) := ⟨h.cfg_eq, h.bank_eq, h.sent⟩

/-- No command but `SETLED` of index `q + 7` changes bit `q` of Bank B, for the two bits that no LED is wired to. -/
theorem exec_bankB_getLsbD {s t : State} {i : Instr} {q : Nat} (h6 : 6 ≤ q) (hq : q < 8) (h : exec i s = .next t)
    (hi : ∀ st, i ≠ .setled (q + 7) st) : t.bankB.getLsbD q = s.bankB.getLsbD q :=
  exec_keeps_on_indices (P := fun u => u.bankB.getLsbD q = s.bankB.getLsbD q) (ok := (· ≠ q + 7))
    (fun k _ hk => by simp only [nLed] at hk; omega)
    (fun u _ st hk hu => (setLed_bankB_getLsbD_other u st hq hk).trans hu) (fun _ hu => hu) (fun _ _ hu => hu)
    (fun _ st he hk => hi st (hk ▸ he)) h rfl

/-- No command but `SETLED` 13 and 14 changes the two bits. -/
theorem exec_bankB_highBits {s t : State} {i : Instr} (h : exec i s = .next t) (h13 : ∀ st, i ≠ .setled 13 st)
    (h14 : ∀ st, i ≠ .setled 14 st) : t.bankB &&& highBits = s.bankB &&& highBits :=
  and_highBits_eq_iff.mpr
    ⟨exec_bankB_getLsbD (q := 6) (by decide) (by decide) h h13, exec_bankB_getLsbD (q := 7) (by decide) (by decide) h h14⟩

/-- A command other than `SETLED` 13 and 14 carries the two bits along. -/
theorem exec_carriesHighBits {s t : State} {i : Instr} (hc : s.cfg.wellFormed = true) (h : exec i s = .next t)
    (h13 : ∀ st, i ≠ .setled 13 st) (h14 : ∀ st, i ≠ .setled 14 st) : CarriesHighBits s t :=
  exec_keeps_on_indices (P := CarriesHighBits s) (ok := fun k => k ≠ 13 ∧ k ≠ 14)
    (fun k _ hk => by simp only [nLed] at hk; omega)
    (fun _ _ st ⟨hk13, hk14⟩ hu => hu.after_setLed hc st hk13 hk14) (fun _ hu => hu.after_configureDevice hc)
    (fun _ r hu => hu.after_complete r)
    (fun _ st hi => ⟨fun hk => h13 st (hk ▸ hi), fun hk => h14 st (hk ▸ hi)⟩) h (CarriesHighBits.refl s)

/-- Settles O26: the indices 13 and 14 alone reach bits 6 and 7 of Bank B, and only `SETLED` with that operand drives them. -/
theorem bankBHighBitsChangeOnlyBy13And14 : Obligations.BankBHighBitsChangeOnlyBy13And14 := by
  refine ⟨fun s t i h => ⟨exec_bankB_getLsbD (by decide) (by decide) h, exec_bankB_getLsbD (by decide) (by decide) h,
    fun hc h13 h14 => ?_⟩, fun c l t hl h => ?_⟩
  · obtain ⟨-, -, calls, htrace, hcalls⟩ := exec_carriesHighBits hc h h13 h14
    rw [newCalls_of_trace htrace]
    exact hcalls
  · have hreset : State.reset.bankB &&& highBits = 0x00#8 := by decide
    refine runAll_keeps (P := fun u => u.bankB &&& highBits = 0x00#8) (fun i hi u v he hu => ?_) h hreset
    exact (exec_bankB_highBits he (fun st => (hl i hi st).1) fun st => (hl i hi st).2).trans hu

end Sys2Proof.Machine
end

section
/-! PROOF SUPPORT. Two runs of one command side by side: a relation that the register, bus and completion operations keep, and
that fixes what they read (the parameters and the banks), is kept by every command. -/

namespace Sys2Proof.Machine

/-- Related states have the parameters and the banks in common, and stay related under every operation that changes a state. -/
structure RespectsOps (R : State → State → Prop) : Prop where
  cfg_eq : ∀ {x y}, R x y → y.cfg = x.cfg
  bank_eq : ∀ {x y}, R x y → ∀ id, readBank y id = readBank x id
  after_writeBank : ∀ {x y}, R x y → ∀ id v, R (writeBank x id v) (writeBank y id v)
  after_busWrite : ∀ {x y}, R x y → ∀ r d, R (busWrite x r d) (busWrite y r d)
  after_complete : ∀ {x y}, R x y → ∀ r, R (complete x r) (complete y r)

/-- A loop whose turns keep a relation keeps it. -/
theorem forRange_relates {R : State → State → Prop} {body : State → Nat → State}
    (hb : ∀ {x y}, R x y → ∀ i, R (body x i) (body y i)) {x y : State} (h : R x y) (first count : Nat) :
    R (forRange first count body x) (forRange first count body y) := by
  induction count generalizing first x y with
  | zero => exact h
  | succ n ih => exact ih (hb h first) (first + 1)

namespace RespectsOps

variable {R : State → State → Prop}

/-- Both runs take the same path of R90, which depends on the policy and one bank alone. -/
theorem after_setLed (hR : RespectsOps R) {x y : State} (h : R x y) (k : Nat) (st : LedState) :
    R (setLed x k st) (setLed y k st) := by
  have hcfg := hR.cfg_eq h
  have hbank := hR.bank_eq h (ledBank k)
  cases hk : acceptsIndex x.cfg.idxHigh k with
  | false => rwa [setLed_ignored st hk, setLed_ignored st (hcfg ▸ hk)]
  | true =>
    have hky : acceptsIndex y.cfg.idxHigh k = true := hcfg ▸ hk
    cases st with
    | on =>
      rw [setLed_on hk, setLed_on hky, hbank]
      exact hR.after_busWrite (hR.after_writeBank h _ _) _ _
    | off =>
      by_cases hbit : readBank x (ledBank k) &&& mask (ledPos k) = 0#8
      · rwa [setLed_off_clear hbit, setLed_off_clear (hbank ▸ hbit)]
      · rw [setLed_off_set hk hbit, setLed_off_set hky (hbank ▸ hbit), hbank]
        exact hR.after_busWrite (hR.after_writeBank h _ _) _ _

theorem after_configureDevice (hR : RespectsOps R) {x y : State} (h : R x y) :
    R (configureDevice x) (configureDevice y) :=
  hR.after_busWrite (hR.after_busWrite (hR.after_busWrite (hR.after_busWrite h _ _) _ _) _ _) _ _

theorem after_setAll (hR : RespectsOps R) {x y : State} (h : R x y) (st : LedState) :
    R (setAll x st) (setAll y st) :=
  forRange_relates (R := R) (fun h k => hR.after_setLed h k st) h 1 nLed

/-- The guard of R104 reads no state, and the scaler reads the rounding alone. -/
theorem after_barGraph (hR : RespectsOps R) {x y : State} (h : R x y) (value max : Nat) :
    R (barGraph x value max) (barGraph y value max) := by
  have hoff := hR.after_setAll h .off
  unfold barGraph
  split
  · exact hoff
  · rw [hR.cfg_eq h]
    exact forRange_relates (R := R) (fun h k => hR.after_setLed h k .on) hoff 1 _

theorem after_showPattern (hR : RespectsOps R) {x y : State} (h : R x y) (pixels : BitVec 12) :
    R (showPattern x pixels) (showPattern y pixels) :=
  forRange_relates (R := R) (fun h p => hR.after_setLed h (p + 1) (pixelState pixels p)) h 0 nLed

/-- A command with a next state has one in every related state, and the two are related. -/
theorem exec_next (hR : RespectsOps R) {x y t : State} (h : R x y) {i : Instr} (he : exec i x = .next t) :
    ∃ u, exec i y = .next u ∧ R t u := by
  cases i with
  | init =>
    cases he
    exact ⟨_, rfl, hR.after_complete (hR.after_setAll (hR.after_configureDevice h) .off) none⟩
  | setled index state =>
    simp only [exec, execSetled, hR.cfg_eq h] at he ⊢
    split at he
    case isFalse => cases he
    case isTrue hport =>
      split at he
      case isTrue => cases he
      case isFalse hpolicy =>
        cases he
        exact ⟨_, by rw [if_pos hport, if_neg hpolicy], hR.after_complete (hR.after_setLed h index state) none⟩
  | setall state =>
    cases he
    exact ⟨_, rfl, hR.after_complete (hR.after_setAll h state) none⟩
  | bargraph value max =>
    simp only [exec, execBargraph] at he ⊢
    split at he
    case isFalse => cases he
    case isTrue hport =>
      cases he
      exact ⟨_, if_pos hport, hR.after_complete (hR.after_barGraph h value max) none⟩
  | pattern pixels =>
    cases he
    exact ⟨_, rfl, hR.after_complete (hR.after_showPattern h pixels) none⟩
  | getbank id =>
    cases he
    refine ⟨_, rfl, ?_⟩
    rw [hR.bank_eq h id]
    exact hR.after_complete h _

end RespectsOps

end Sys2Proof.Machine
end

section
/-! PROOFS. The device: a command's result does not depend on it (R42), and what one `BusWrite` sends (R40, R41). -/

namespace Sys2Proof.Machine

/-! ### R42 -/

/-- Two states that may differ in shadow, history and the calls made so far (`before` in one, `sent` in the other), but have
the parameters, banks and responses in common and the calls made since. -/
structure SameButDevice (before sent : List BusWrite) (x y : State) : Prop where
  cfg_eq : y.cfg = x.cfg
  bankA_eq : y.bankA = x.bankA
  bankB_eq : y.bankB = x.bankB
  responses_eq : y.responses = x.responses
  calls_eq : ∃ calls, x.trace = before ++ calls ∧ y.trace = sent ++ calls

/-- No operation reads the shadow, the trace or the history. -/
theorem sameButDevice_respectsOps (before sent : List BusWrite) : RespectsOps (SameButDevice before sent) where
  cfg_eq h := h.cfg_eq
  bank_eq h id := by
    cases id with
    | a => exact h.bankA_eq
    | b => exact h.bankB_eq
  after_writeBank h id v := by
    obtain ⟨hcfg, hA, hB, hresp, hcalls⟩ := h
    cases id with
    | a => exact ⟨hcfg, rfl, hB, hresp, hcalls⟩
    | b => exact ⟨hcfg, hA, rfl, hresp, hcalls⟩
  after_busWrite {x y} h r d := by
    obtain ⟨hcfg, hA, hB, hresp, calls, hx, hy⟩ := h
    exact ⟨hcfg, hA, hB, hresp, calls ++ [callOf x.cfg r d], by simp [hx], by simp [hy, hcfg]⟩
  after_complete h r := by
    obtain ⟨hcfg, hA, hB, hresp, hcalls⟩ := h
    exact ⟨hcfg, hA, hB, by simp [hresp], hcalls⟩

/-- Settles O47: both runs of a command go through states that differ in the device's side alone. -/
theorem resultsDoNotDependOnTheDevice : Obligations.ResultsDoNotDependOnTheDevice := by
  intro s t i m sent older h
  have hstart : SameButDevice s.trace sent s { s with dev := m, trace := sent, history := older } :=
    ⟨rfl, rfl, rfl, rfl, [], by simp, by simp⟩
  obtain ⟨u, hu, -, hA, hB, hresp, calls, ht, hsent⟩ := (sameButDevice_respectsOps s.trace sent).exec_next hstart h
  exact ⟨u, hu, hA, hB, hresp, by rw [hsent, newCalls_of_trace ht]⟩

/-! ### R40, R41 -/

/-- The register identifier is the high byte of the word (R41). -/
theorem BusWrite.word_toNat (c : BusWrite) : c.word.toNat = c.reg.toNat * 256 + c.data.toNat := by
  rw [BusWrite.word, BitVec.toNat_append, ← Nat.shiftLeft_add_eq_or_of_lt c.data.isLt, Nat.shiftLeft_eq]

/-- The register identifier is sent before the data (R41, "big-endian"). -/
theorem BusWrite.bytes_eq (c : BusWrite) : c.bytes = [c.reg, c.data] := by
  rw [BusWrite.bytes, BusWrite.word, BitVec.extractLsb'_append_eq_left, BitVec.extractLsb'_append_eq_right]

/-- Settles O17: `BusWrite` is one `transfer` of the call, whose word and bytes put the register identifier first. -/
theorem busWriteAppendsOneTripleHighByteTheRegister : Obligations.BusWriteAppendsOneTripleHighByteTheRegister :=
  fun s r d => ⟨rfl, (callOf s.cfg r d).word_toNat, (callOf s.cfg r d).bytes_eq⟩

end Sys2Proof.Machine
end

section
/-! PROOF SUPPORT. Command words in numbers (spec/30_encoding.md): the operands as quotients and remainders of the word, the
canonical payloads as sums, and the payload bits a command reads as one low segment. -/

namespace Sys2Proof

/-- Two bit vectors put together are, in numbers, the upper one shifted up plus the lower one. -/
theorem toNat_append_eq_add {m n : Nat} (x : BitVec m) (y : BitVec n) : (x ++ y).toNat = x.toNat * 2 ^ n + y.toNat := by
  rw [BitVec.toNat_append, ← Nat.shiftLeft_add_eq_or_of_lt y.isLt, Nat.shiftLeft_eq]

/-! ### The two fields of a word (R60) -/

@[simp] theorem cmdPayload_toNat (w : CmdWord) : (cmdPayload w).toNat = w.toNat % 2 ^ 32 := by simp [cmdPayload]

@[simp] theorem cmdPayload_append (op : Byte) (pl : BitVec 32) : cmdPayload (op ++ pl) = pl :=
  BitVec.extractLsb'_append_eq_right

@[simp] theorem cmdOp_clearIgnored (w : CmdWord) : cmdOp (clearIgnored w) = cmdOp w :=
  Laws.EncodeOpcode.cmdOp_append _ _

@[simp] theorem cmdOp_encode (i : Instr) : cmdOp (encode i) = opcode i := Laws.EncodeOpcode.cmdOp_append _ _

@[simp] theorem cmdPayload_encode (i : Instr) : cmdPayload (encode i) = payload i := cmdPayload_append _ _

/-- The six assigned opcodes and the reserved rest (R61, R69). -/
theorem opcode_cases (op : Byte) : op.toNat = 1 ∨ op.toNat = 2 ∨ op.toNat = 3 ∨ op.toNat = 4 ∨ op.toNat = 5 ∨
    op.toNat = 6 ∨ (op.toNat = 0 ∨ 7 ≤ op.toNat) := by omega

/-! ### The decoder, an equation for each opcode (R62 to R67, R69) -/

/-- A bit of the payload is 1 exactly when the number shifted down to it is odd. -/
theorem cmdPayload_getElem (w : CmdWord) {k : Nat} (hk : k < 32) :
    (cmdPayload w)[k] = decide (w.toNat / 2 ^ k % 2 = 1) := by
  rw [← Nat.testBit_eq_decide_div_mod_eq, cmdPayload, BitVec.getElem_extractLsb', Nat.zero_add, BitVec.getLsbD]

theorem decode_init {w : CmdWord} (h : (cmdOp w).toNat = 1) : decode w = .instr .init := by simp [decode, h]

theorem decode_setled {w : CmdWord} (h : (cmdOp w).toNat = 2) :
    decode w = .instr (.setled (w.toNat % 256) (if w.toNat / 256 % 2 = 1 then .on else .off)) := by
  simp [decode, h, ledStateOfBit, cmdPayload_getElem]

theorem decode_setall {w : CmdWord} (h : (cmdOp w).toNat = 3) :
    decode w = .instr (.setall (if w.toNat % 2 = 1 then .on else .off)) := by
  simp [decode, h, ledStateOfBit, cmdPayload_getElem]

theorem decode_bargraph {w : CmdWord} (h : (cmdOp w).toNat = 4) :
    decode w = .instr (.bargraph (w.toNat % 65536) (w.toNat / 65536 % 65536)) := by
  have hvalue : ((cmdPayload w).extractLsb' 0 16).toNat = w.toNat % 65536 := by simp
  have hmax : ((cmdPayload w).extractLsb' 16 16).toNat = w.toNat / 65536 % 65536 := by
    rw [BitVec.extractLsb'_toNat, cmdPayload_toNat, Nat.shiftRight_eq_div_pow]
    omega
  simp only [decode, h, hvalue, hmax]

theorem decode_pattern {w : CmdWord} (h : (cmdOp w).toNat = 5) :
    decode w = .instr (.pattern (BitVec.ofNat 12 (w.toNat % 4096))) := by
  have hpixels : (cmdPayload w).extractLsb' 0 12 = BitVec.ofNat 12 (w.toNat % 4096) := by
    apply BitVec.eq_of_toNat_eq
    simp
  simp [decode, h, hpixels]

theorem decode_getbank {w : CmdWord} (h : (cmdOp w).toNat = 6) :
    decode w = .instr (.getbank (if w.toNat % 2 = 1 then .b else .a)) := by
  simp [decode, h, bankIdOfBit, cmdPayload_getElem]

/-- A reserved opcode is rejected by name (R69). -/
theorem decode_reserved {w : CmdWord} (h : (cmdOp w).toNat = 0 ∨ 7 ≤ (cmdOp w).toNat) :
    decode w = .invalid (cmdOp w) := by
  unfold decode
  split
  case h_7 => rfl
  all_goals omega

/-! ### Canonical words (R62 to R67) -/

/-- A canonical word is its opcode and its payload side by side. -/
theorem encode_toNat (i : Instr) : (encode i).toNat = (opcode i).toNat * 2 ^ 32 + (payload i).toNat :=
  toNat_append_eq_add _ _

theorem payload_setled_toNat (index : Nat) (state : LedState) :
    (payload (.setled index state)).toNat = (bitOfLedState state).toNat * 256 + index % 256 := by
  have hstate : (0#23 ++ bitOfLedState state).toNat = (bitOfLedState state).toNat :=
    (toNat_append_eq_add 0#23 (bitOfLedState state)).trans (by simp)
  have h := toNat_append_eq_add (0#23 ++ bitOfLedState state) (BitVec.ofNat 8 index)
  rwa [hstate, BitVec.toNat_ofNat] at h

theorem payload_setall_toNat (state : LedState) : (payload (.setall state)).toNat = (bitOfLedState state).toNat :=
  (toNat_append_eq_add 0#31 (bitOfLedState state)).trans (by simp)

theorem payload_bargraph_toNat (value max : Nat) :
    (payload (.bargraph value max)).toNat = max % 65536 * 65536 + value % 65536 :=
  (toNat_append_eq_add (BitVec.ofNat 16 max) (BitVec.ofNat 16 value)).trans (by simp)

theorem payload_pattern_toNat (pixels : BitVec 12) : (payload (.pattern pixels)).toNat = pixels.toNat :=
  (toNat_append_eq_add 0#20 pixels).trans (by simp)

theorem payload_getbank_toNat (id : BankId) : (payload (.getbank id)).toNat = (bitOfBankId id).toNat :=
  (toNat_append_eq_add 0#31 (bitOfBankId id)).trans (by simp)

/-- The canonical words of `SETLED` (R63), the `state` bit worth 256. -/
theorem encode_setled_toNat {index : Nat} (h : index < 256) (state : LedState) :
    (encode (.setled index state)).toNat = 0x0200000000 + (bitOfLedState state).toNat * 256 + index := by
  simp [encode_toNat, opcode, payload_setled_toNat, Nat.mod_eq_of_lt h, Nat.add_assoc]

/-- The canonical words of `BARGRAPH` (R65). -/
theorem encode_bargraph_toNat {value max : Nat} (hv : value < 65536) (hm : max < 65536) :
    (encode (.bargraph value max)).toNat = 0x0400000000 + max * 65536 + value := by
  simp [encode_toNat, opcode, payload_bargraph_toNat, Nat.mod_eq_of_lt hv, Nat.mod_eq_of_lt hm, Nat.add_assoc]

/-- The canonical words of `PATTERN` (R66). -/
theorem encode_pattern_toNat (pixels : BitVec 12) :
    (encode (.pattern pixels)).toNat = 0x0500000000 + pixels.toNat := by
  simp [encode_toNat, opcode, payload_pattern_toNat]

/-- The `state` field of a parity is the parity (R63, R64). -/
theorem bitOfLedState_parity (n : Nat) :
    (bitOfLedState (if n % 2 = 1 then .on else .off)).toNat = n % 2 := by
  rcases Nat.mod_two_eq_zero_or_one n with h | h <;> simp [h, bitOfLedState]

/-- The `id` field of a parity is the parity (R67). -/
theorem bitOfBankId_parity (n : Nat) : (bitOfBankId (if n % 2 = 1 then .b else .a)).toNat = n % 2 := by
  rcases Nat.mod_two_eq_zero_or_one n with h | h <;> simp [h, bitOfBankId]

/-! ### Read and ignored bits (R70) -/

/-- How many payload bits a command reads (R62 to R67): the read bits of every opcode are the low ones. -/
def readWidth (op : Byte) : Nat :=
  match op.toNat with
  | 1 => 0
  | 2 => 9
  | 3 => 1
  | 4 => 32
  | 5 => 12
  | 6 => 1
  | _ => 32

theorem readMask_eq (op : Byte) : readMask op = BitVec.ofNat 32 (2 ^ readWidth op - 1) := by
  unfold readMask readWidth
  split <;> simp [*]

theorem readWidth_le (op : Byte) : readWidth op ≤ 32 := by
  unfold readWidth
  split <;> decide

/-- Masking to the read bits is the remainder of the payload by the power of two above them. -/
theorem and_readMask_toNat (pl : BitVec 32) (op : Byte) : (pl &&& readMask op).toNat = pl.toNat % 2 ^ readWidth op := by
  have hle : 2 ^ readWidth op ≤ 2 ^ 32 := Nat.pow_le_pow_right (by decide) (readWidth_le op)
  have hpos := Nat.two_pow_pos (readWidth op)
  rw [BitVec.toNat_and, readMask_eq, BitVec.toNat_ofNat, Nat.mod_eq_of_lt (by omega), Nat.and_two_pow_sub_one_eq_mod]

theorem clearIgnored_toNat (w : CmdWord) :
    (clearIgnored w).toNat = (cmdOp w).toNat * 2 ^ 32 + w.toNat % 2 ^ readWidth (cmdOp w) := by
  rw [clearIgnored, toNat_append_eq_add, and_readMask_toNat, cmdPayload_toNat,
    Nat.mod_mod_of_dvd _ (Nat.pow_dvd_pow 2 (readWidth_le _))]

/-- The canonical payload sets no bit above those its command reads. -/
theorem payload_lt (i : Instr) : (payload i).toNat < 2 ^ readWidth (opcode i) := by
  cases i with
  | init => decide
  | setled index state =>
    have hstate := (bitOfLedState state).isLt
    calc (payload (.setled index state)).toNat = (bitOfLedState state).toNat * 256 + index % 256 :=
          payload_setled_toNat index state
      _ < 512 := by omega
  | setall state => exact (payload_setall_toNat state).trans_lt (bitOfLedState state).isLt
  | bargraph value max => exact (payload (.bargraph value max)).isLt
  | pattern pixels => exact (payload_pattern_toNat pixels).trans_lt pixels.isLt
  | getbank id => exact (payload_getbank_toNat id).trans_lt (bitOfBankId id).isLt

/-- A canonical word has no ignored bit set (R70). -/
theorem clearIgnored_encode (i : Instr) : clearIgnored (encode i) = encode i := by
  have hkeep : payload i &&& readMask (opcode i) = payload i := by
    apply BitVec.eq_of_toNat_eq
    rw [and_readMask_toNat, Nat.mod_eq_of_lt (payload_lt i)]
  rw [clearIgnored, cmdOp_encode, cmdPayload_encode, hkeep, encode]

/-- Clearing the ignored bits leaves the read ones. -/
theorem clearIgnored_mod (w : CmdWord) :
    (clearIgnored w).toNat % 2 ^ readWidth (cmdOp w) = w.toNat % 2 ^ readWidth (cmdOp w) := by
  obtain ⟨c, hc⟩ : 2 ^ readWidth (cmdOp w) ∣ 2 ^ 32 := Nat.pow_dvd_pow 2 (readWidth_le _)
  rw [clearIgnored_toNat, hc, Nat.mul_left_comm, Nat.mul_add_mod, Nat.mod_mod]

/-- The decoder reads no ignored bit (R70). -/
theorem decode_clearIgnored (w : CmdWord) : decode (clearIgnored w) = decode w := by
  have hop := cmdOp_clearIgnored w
  have hread := clearIgnored_mod w
  rcases opcode_cases (cmdOp w) with h | h | h | h | h | h | h
  · rw [decode_init h, decode_init (hop ▸ h)]
  · simp only [readWidth, h] at hread
    have hindex : (clearIgnored w).toNat % 256 = w.toNat % 256 := by omega
    have hstate : (clearIgnored w).toNat / 256 % 2 = w.toNat / 256 % 2 := by omega
    rw [decode_setled h, decode_setled (hop ▸ h), hindex, hstate]
  · simp only [readWidth, h, pow_one] at hread
    rw [decode_setall h, decode_setall (hop ▸ h), hread]
  · simp only [readWidth, h] at hread
    have hvalue : (clearIgnored w).toNat % 65536 = w.toNat % 65536 := by omega
    have hmax : (clearIgnored w).toNat / 65536 % 65536 = w.toNat / 65536 % 65536 := by omega
    rw [decode_bargraph h, decode_bargraph (hop ▸ h), hvalue, hmax]
  · simp only [readWidth, h] at hread
    have hpixels : (clearIgnored w).toNat % 4096 = w.toNat % 4096 := by omega
    rw [decode_pattern h, decode_pattern (hop ▸ h), hpixels]
  · simp only [readWidth, h, pow_one] at hread
    rw [decode_getbank h, decode_getbank (hop ▸ h), hread]
  · rw [decode_reserved h, decode_reserved (hop.symm ▸ h), hop]

/-- The opcode of a decoded command is the word's (R61). -/
theorem opcode_of_decode {w : CmdWord} {i : Instr} (h : decode w = .instr i) : opcode i = cmdOp w := by
  unfold decode at h
  split at h <;> cases h
  all_goals exact BitVec.eq_of_toNat_eq (Eq.symm ‹_›)

/-- The canonical payload of a decoded command is, in numbers, the read bits of the word. -/
theorem payload_of_decode {w : CmdWord} {i : Instr} (h : decode w = .instr i) :
    (payload i).toNat = w.toNat % 2 ^ readWidth (cmdOp w) := by
  rcases opcode_cases (cmdOp w) with hop | hop | hop | hop | hop | hop | hop
  · rw [decode_init hop] at h
    cases h
    simp [payload, readWidth, hop, Nat.mod_one]
  · rw [decode_setled hop] at h
    cases h
    rw [payload_setled_toNat, bitOfLedState_parity]
    simp only [readWidth, hop]
    omega
  · rw [decode_setall hop] at h
    cases h
    simp [payload_setall_toNat, bitOfLedState_parity, readWidth, hop]
  · rw [decode_bargraph hop] at h
    cases h
    rw [payload_bargraph_toNat]
    simp only [readWidth, hop]
    omega
  · rw [decode_pattern hop] at h
    cases h
    simp [payload_pattern_toNat, readWidth, hop]
  · rw [decode_getbank hop] at h
    cases h
    simp [payload_getbank_toNat, bitOfBankId_parity, readWidth, hop]
  · rw [decode_reserved hop] at h
    cases h

/-- Encoding what was decoded clears the ignored bits (R70). -/
theorem encode_of_decode {w : CmdWord} {i : Instr} (h : decode w = .instr i) : encode i = clearIgnored w := by
  apply BitVec.eq_of_toNat_eq
  rw [encode_toNat, clearIgnored_toNat, opcode_of_decode h, payload_of_decode h]

end Sys2Proof
end

section
/-! PROOFS. The encoding of command words: ignored bits (R70), operands and canonical words (R62 to R67), and the reserved
opcodes (R69). -/

namespace Sys2Proof.Machine

/-- Settles O10, clause by clause: the read bits of a payload are its remainder by a power of two, and decoder and encoder
use that remainder only. -/
theorem encodeOfDecodeClearsTheIgnoredBits : Obligations.EncodeOfDecodeClearsTheIgnoredBits :=
  ⟨fun _ _ => encode_of_decode, decode_clearIgnored, fun i _ => clearIgnored_encode i⟩

/-- Settles O11 from the decoder's equation for each opcode and the canonical words in numbers. -/
theorem operandSlicesAndCanonicalWordsInNumbers : Obligations.OperandSlicesAndCanonicalWordsInNumbers :=
  ⟨fun _ => decode_init, fun _ => decode_setled, fun _ => decode_setall, fun _ => decode_bargraph,
    fun _ => decode_pattern, fun _ => decode_getbank, by decide,
    fun _ hi => ⟨encode_setled_toNat hi .on, encode_setled_toNat hi .off⟩, by decide, by decide,
    fun _ _ => encode_bargraph_toNat, encode_pattern_toNat, by decide, by decide⟩

/-- An idle block whose next input is a command word takes the word off and runs it (R60). -/
theorem step_command_idle {s : State} {w : CmdWord} {rest : List Input} (hf : s.inFlight = none)
    (hi : s.inputs = .command w :: rest) : step s = runWord w { s with inputs := rest } := by
  simp [step, nextInput_idle hf hi]

/-- An accepted word that decodes to `Invalid` completes without data and does nothing else (R69). -/
theorem runWord_invalid {w : CmdWord} {op : Byte} (h : decode w = .invalid op) (s : State) :
    runWord w s = .next (complete s none) := by
  simp [runWord, h, execInvalid]

/-- Settles O7: the decoder rejects the word, and the step runs the rejected word. -/
theorem reservedOpcodesCompleteAndChangeNothing : Obligations.ReservedOpcodesCompleteAndChangeNothing := by
  intro s w rest hf hi hop
  have hd := decode_reserved hop
  refine ⟨hd, ?_⟩
  rw [step_command_idle hf hi, runWord_invalid hd, complete]

end Sys2Proof.Machine
end

section
/-! PROOF SUPPORT. The mask as a number and the index gate in words, and what `TestBit`, `SetBit` and `ClearBit` do to the one
bit of their position (R81 to R84, R91, R92). -/

namespace Sys2Proof.Machine

/-- A second write to the same bank replaces the first. -/
@[simp] theorem writeBank_writeBank_same (s : State) (id : BankId) (v w : Byte) :
    writeBank (writeBank s id v) id w = writeBank s id w := by cases id <;> rfl

/-- `Mask(pos)` in numbers (R81). -/
theorem mask_toNat (pos : Nat) : (mask pos).toNat = 2 ^ pos % 2 ^ 8 := by
  rw [mask, trunc8, BitVec.toNat_ofNat, Nat.one_shiftLeft]

/-- No bank has a position past 7, and its mask is empty (R81). -/
theorem mask_eq_zero {pos : Nat} (h : 8 ≤ pos) : mask pos = 0#8 := by
  refine BitVec.eq_of_toNat_eq ?_
  rw [mask_toNat, Nat.mod_eq_zero_of_dvd (Nat.pow_dvd_pow 2 h), BitVec.toNat_zero]

/-- The AND-test reads the bit of the position; past position 7 both sides are `false`. -/
theorem and_mask_eq_zero_iff {v : Byte} {pos : Nat} : v &&& mask pos = 0#8 ↔ v.getLsbD pos = false := by
  constructor
  · intro h
    obtain hpos | hpos := Nat.lt_or_ge pos 8
    · have hbit : (v &&& mask pos).getLsbD pos = false := by rw [h, BitVec.getLsbD_zero]
      simpa [getLsbD_mask hpos] using hbit
    · exact BitVec.getLsbD_of_ge v pos hpos
  · intro h
    refine BitVec.eq_of_getLsbD_eq fun q hq => ?_
    rw [BitVec.getLsbD_and, getLsbD_mask hq, BitVec.getLsbD_zero]
    by_cases hqp : q = pos
    · rw [hqp, h, Bool.false_and]
    · rw [decide_eq_false hqp, Bool.and_false]

/-- An accepted index lies in 1..16, and in 1..14 unless the policy is `truncate` (R91, R99). -/
theorem acceptsIndex_iff {p : IdxHighPolicy} {i : Nat} :
    acceptsIndex p i = true ↔ 1 ≤ i ∧ i ≤ 16 ∧ (i ≤ 14 ∨ p = .truncate) := by
  have hmax : idxMax = 16 := rfl
  simp only [acceptsIndex, inGate, highIndex, Bool.and_eq_true, Bool.or_eq_true, Bool.not_eq_true',
    Bool.and_eq_false_iff, decide_eq_true_eq, decide_eq_false_iff_not]
  by_cases hp : p = .truncate
  · simp only [hp, or_true, and_true, hmax]
  · simp only [hp, or_false]
    omega

/-- Bank B, whose indices begin at 7, holds the last position an index can reach (R92). -/
theorem ledPos_le {i n : Nat} (hn : 5 ≤ n) (hi : i ≤ n + 7) : ledPos i ≤ n := by
  have h6 : ledsPerBank = 6 := rfl
  rw [ledPos]
  split <;> omega

/-- `TestBit` is true iff the AND with the mask is not empty (R82). -/
theorem testBit_iff {s : State} {id : BankId} {pos : Nat} :
    testBit s id pos = true ↔ readBank s id &&& mask pos ≠ 0#8 := decide_eq_true_iff

theorem testBit_eq_false_iff {s : State} {id : BankId} {pos : Nat} :
    testBit s id pos = false ↔ readBank s id &&& mask pos = 0#8 := by
  rw [← Bool.not_eq_true, testBit_iff, ne_eq, not_not]

/-- `TestBit` reads the bit of its position. -/
theorem testBit_eq_getLsbD (s : State) (id : BankId) (pos : Nat) :
    testBit s id pos = (readBank s id).getLsbD pos := by
  rw [Bool.eq_iff_iff, testBit_iff, ne_eq, and_mask_eq_zero_iff, Bool.not_eq_false]

@[simp] theorem readBank_setBit (s : State) (id : BankId) (pos : Nat) :
    readBank (setBit s id pos) id = readBank s id ||| mask pos := readBank_writeBank_same _ _ _

/-- Setting a set bit changes nothing. -/
theorem setBit_setBit (s : State) (id : BankId) (pos : Nat) : setBit (setBit s id pos) id pos = setBit s id pos := by
  have hread : readBank (setBit s id pos) id ||| mask pos = readBank s id ||| mask pos := by
    rw [readBank_setBit, BitVec.or_assoc, BitVec.or_self]
  rw [setBit, hread, setBit, writeBank_writeBank_same]

/-- `SetBit` sets the bit of its position and keeps the other bits of the bank (R83). -/
theorem setBit_getLsbD (s : State) (id : BankId) (pos : Nat) {q : Nat} (hq : q < 8) :
    (readBank (setBit s id pos) id).getLsbD q = (decide (q = pos) || (readBank s id).getLsbD q) := by
  rw [readBank_setBit, BitVec.getLsbD_or, getLsbD_mask hq, Bool.or_comm]

/-- The path of `ClearBit` that writes (R84). -/
theorem clearBit_of_set {s : State} {id : BankId} {pos : Nat} (h : testBit s id pos = true) :
    clearBit s id pos = (writeBank s id (readBank s id ^^^ mask pos), true) := by rw [clearBit, if_pos h]

/-- The path of `ClearBit` that does nothing (R84). -/
theorem clearBit_of_clear {s : State} {id : BankId} {pos : Nat} (h : testBit s id pos = false) :
    clearBit s id pos = (s, false) := by rw [clearBit, if_neg (Bool.eq_false_iff.mp h)]

/-- After `ClearBit` the bit is clear: the exclusive-OR turns over a set bit only. -/
theorem testBit_clearBit (s : State) (id : BankId) (pos : Nat) : testBit (clearBit s id pos).1 id pos = false := by
  cases h : testBit s id pos with
  | false => rwa [clearBit_of_clear h]
  | true =>
    have hbit : (readBank s id).getLsbD pos = true := by rwa [← testBit_eq_getLsbD]
    have hpos : pos < 8 := BitVec.lt_of_getLsbD hbit
    rw [clearBit_of_set h, testBit_eq_getLsbD, readBank_writeBank_same, BitVec.getLsbD_xor, hbit, getLsbD_mask hpos,
      decide_eq_true rfl, Bool.xor_self]

end Sys2Proof.Machine
end

section
/-! PROOFS. `GETBANK` and the micro-operations of the cache (R80 to R84). -/

namespace Sys2Proof.Machine

/-- Settles O15: the exact states are the two banks' writes, the rest is `setBit_setBit` and `setBit_getLsbD`. -/
theorem setBitIsOrWithTheMask : Obligations.SetBitIsOrWithTheMask := fun s pos =>
  ⟨rfl, rfl, fun id => ⟨setBit_setBit s id pos, fun _ hq => setBit_getLsbD s id pos hq⟩⟩

/-- Settles O16: the two paths of `clearBit`, and the second `ClearBit` takes the one that does nothing. -/
theorem clearBitIsGuardedExclusiveOrAndNeverToggles : Obligations.ClearBitIsGuardedExclusiveOrAndNeverToggles := by
  intro s id pos
  refine ⟨testBit_iff, fun hm => testBit_eq_false_iff.mpr ?_, fun h => clearBit_of_set (testBit_iff.mpr h),
    fun h => clearBit_of_clear (testBit_eq_false_iff.mpr h), clearBit_of_clear (testBit_clearBit s id pos)⟩
  rw [hm, BitVec.and_zero]

/-- Settles O13: `GETBANK` is the completion with the bank's byte. -/
theorem getbankRespondsWithTheBankAndChangesNothing : Obligations.GetbankRespondsWithTheBankAndChangesNothing :=
  fun _ => ⟨rfl, rfl⟩

/-- Settles O14: the mask in numbers, and the last position that an accepted index reaches. -/
theorem maskIsTheTruncatedPowerOfTwo : Obligations.MaskIsTheTruncatedPowerOfTwo := by
  refine ⟨fun pos hpos => ?_, mask_eq_zero (by decide), mask_eq_zero (by decide), fun p i h => ?_, fun p i h hp => ?_⟩
  · rw [mask_toNat, Nat.mod_eq_of_lt (Nat.pow_lt_pow_right (by decide) hpos)]
  · obtain ⟨-, h16, -⟩ := acceptsIndex_iff.mp h
    exact ledPos_le (by decide) h16
  · obtain ⟨-, -, h14⟩ := acceptsIndex_iff.mp h
    exact ledPos_le (by decide) (h14.resolve_right hp)

end Sys2Proof.Machine
end

section
/-! PROOF SUPPORT. The command `SETLED` from its operation: the index map in numbers (R92), when the command has a step (R91,
R99), and what `setLed` sends, shows and leaves (R93 to R97). -/

namespace Sys2Proof.Machine

/-! ### The index (R91, R92, R99) -/

/-- The mask is one bit shifted into place, which falls out of the byte past position 7 (R81). -/
theorem mask_eq_shiftLeft (pos : Nat) : mask pos = 1#8 <<< pos := by
  refine BitVec.eq_of_toNat_eq ?_
  rw [mask_toNat, BitVec.toNat_shiftLeft, BitVec.toNat_ofNat, Nat.shiftLeft_eq, Nat.one_mod, Nat.one_mul]

theorem inGate_iff {i : Nat} : inGate i = true ↔ 1 ≤ i ∧ i ≤ 16 := by
  rw [inGate, Bool.and_eq_true, decide_eq_true_iff, decide_eq_true_iff, idxMax]

theorem highIndex_iff {i : Nat} : highIndex i = true ↔ 15 ≤ i ∧ i ≤ 16 := by
  rw [highIndex, Bool.and_eq_true, decide_eq_true_iff, decide_eq_true_iff]

/-- The indices 1..14 are accepted under every policy. -/
theorem acceptsIndex_of_low {i : Nat} (h1 : 1 ≤ i) (h14 : i ≤ 14) (p : IdxHighPolicy) : acceptsIndex p i = true :=
  acceptsIndex_iff.mpr ⟨h1, h14.trans (by decide), .inl h14⟩

theorem ledBank_of_le {i : Nat} (h : i ≤ 6) : ledBank i = .a := if_pos h

theorem ledPos_of_le {i : Nat} (h : i ≤ 6) : ledPos i = i - 1 := if_pos h

theorem ledBank_of_gt {i : Nat} (h : 6 < i) : ledBank i = .b := if_neg (Nat.not_le.mpr h)

theorem ledPos_of_gt {i : Nat} (h : 6 < i) : ledPos i = i - 7 :=
  (if_neg (Nat.not_le.mpr h)).trans (Nat.sub_sub i 6 1)

/-! ### The command -/

/-- A `SETLED` that fits its port and is not refused by the policy is its operation and a completion. -/
theorem exec_setled {s : State} {i : Nat} (st : LedState) (hi : i < 256)
    (hp : highIndex i = true → s.cfg.idxHigh ≠ .refuse) :
    exec (.setled i st) s = .next (complete (setLed s i st) none) := by
  have hstep : ¬ (highIndex i && decide (s.cfg.idxHigh = .refuse)) = true := by
    rw [Bool.and_eq_true, decide_eq_true_iff]
    exact fun ⟨hhigh, hrefuse⟩ => hp hhigh hrefuse
  rw [exec, execSetled, if_pos hi, if_neg hstep]

/-- The indices 15 and 16 have no step under `refuse` (R99). -/
theorem exec_setled_refused {s : State} {i : Nat} (st : LedState) (hi : highIndex i = true)
    (hp : s.cfg.idxHigh = .refuse) : exec (.setled i st) s = .refused .highIndexRefused := by
  have hport : i < 256 := (highIndex_iff.mp hi).2.trans_lt (by decide)
  have hstop : (highIndex i && decide (s.cfg.idxHigh = .refuse)) = true := by
    rw [hi, hp, Bool.true_and, decide_eq_true rfl]
  rw [exec, execSetled, if_pos hport, if_pos hstop]

/-- A `SETLED` with a next state is its operation and a completion. -/
theorem eq_of_exec_setled {s t : State} {i : Nat} {st : LedState} (h : exec (.setled i st) s = .next t) :
    t = complete (setLed s i st) none := by
  rw [exec, execSetled] at h
  split at h
  case isFalse => cases h
  case isTrue =>
    split at h
    case isTrue => cases h
    case isFalse =>
      cases h
      rfl

/-- An accepted index always has a step. -/
theorem exec_setled_accepted {s : State} {i : Nat} (st : LedState) (h : acceptsIndex s.cfg.idxHigh i = true) :
    exec (.setled i st) s = .next (complete (setLed s i st) none) := by
  obtain ⟨-, h16, h14⟩ := acceptsIndex_iff.mp h
  refine exec_setled st (h16.trans_lt (by decide)) fun hhigh hrefuse => ?_
  obtain ⟨h15, -⟩ := highIndex_iff.mp hhigh
  obtain hle | htrunc := h14
  · omega
  · rw [hrefuse] at htrunc
    cases htrunc

/-- An index that is neither accepted nor refused completes and does nothing else (R91, R99). -/
theorem exec_setled_ignored {s : State} {i : Nat} (st : LedState) (hi : i < 256)
    (hp : highIndex i = true → s.cfg.idxHigh ≠ .refuse) (h : acceptsIndex s.cfg.idxHigh i = false) :
    exec (.setled i st) s = .next { s with responses := s.responses ++ [none] } := by
  rw [exec_setled st hi hp, setLed_ignored st h, complete]

/-! ### What `setLed` sends (R93 to R95) -/

/-- The OFF path, whether or not the bit is set (R94). -/
theorem setLed_off {s : State} {i : Nat} (h : acceptsIndex s.cfg.idxHigh i = true) :
    setLed s i .off =
      if readBank s (ledBank i) &&& mask (ledPos i) ≠ 0#8 then
        busWrite (writeBank s (ledBank i) (readBank s (ledBank i) ^^^ mask (ledPos i))) (dataReg (ledBank i))
          (readBank s (ledBank i) ^^^ mask (ledPos i))
      else s := by
  split
  case isTrue hbit => exact setLed_off_set h hbit
  case isFalse hbit => exact setLed_off_clear (not_not.mp hbit)

/-- A new value of Bank A, sent and completed. -/
theorem complete_send_bankA (s : State) (v : Byte) :
    complete (busWrite (writeBank s .a v) (dataReg .a) v) none =
      afterCommand s v s.bankB [⟨s.cfg.devAddr, s.cfg.regDataA, v⟩] none := rfl

/-- A new value of Bank B, sent and completed. -/
theorem complete_send_bankB (s : State) (v : Byte) :
    complete (busWrite (writeBank s .b v) (dataReg .b) v) none =
      afterCommand s s.bankA v [⟨s.cfg.devAddr, s.cfg.regDataB, v⟩] none := rfl

/-- Whether `setLed` makes its one call: on an accepted index, always for ON, and for OFF when the bit is set (the table of
R95). -/
def sendsCall (s : State) (i : Nat) (st : LedState) : Bool :=
  acceptsIndex s.cfg.idxHigh i && (decide (st = .on) || testBit s (ledBank i) (ledPos i))

theorem sendsCall_on {s : State} {i : Nat} (h : acceptsIndex s.cfg.idxHigh i = true) : sendsCall s i .on = true := by
  rw [sendsCall, h, decide_eq_true rfl, Bool.true_or, Bool.true_and]

/-- OFF makes a call on a lit LED alone (R94). -/
theorem sendsCall_off {s : State} {i : Nat} (h : acceptsIndex s.cfg.idxHigh i = true) :
    sendsCall s i .off = ledLit s i := by
  rw [sendsCall, h, decide_eq_false nofun, Bool.false_or, Bool.true_and, testBit_eq_getLsbD, ledLit]

/-- The one call carries the new value of the index's own bank to that bank's data register (R95). -/
theorem setLed_trace (s : State) (i : Nat) (st : LedState) :
    (setLed s i st).trace = s.trace ++
      if sendsCall s i st then [dataCall s.cfg (ledBank i) (readBank (setLed s i st) (ledBank i))] else [] := by
  cases h : acceptsIndex s.cfg.idxHigh i with
  | false => simp [sendsCall, h, setLed_ignored st h]
  | true =>
    cases st with
    | on => simp [sendsCall, h, setLed_on h, dataCall]
    | off =>
      by_cases hbit : readBank s (ledBank i) &&& mask (ledPos i) = 0#8
      · simp [sendsCall, testBit, hbit, setLed_off_clear hbit]
      · simp [sendsCall, testBit, h, hbit, setLed_off_set h hbit, dataCall]

/-! ### What `setLed` leaves unchanged (R95) -/

@[simp] theorem setLed_history (s : State) (i : Nat) (st : LedState) : (setLed s i st).history = s.history := by
  rcases setLed_cases s i st with h | ⟨-, v, h, -⟩ <;> simp [h]

@[simp] theorem setLed_responses (s : State) (i : Nat) (st : LedState) : (setLed s i st).responses = s.responses := by
  rcases setLed_cases s i st with h | ⟨-, v, h, -⟩ <;> simp [h]

@[simp] theorem setLed_inFlight (s : State) (i : Nat) (st : LedState) : (setLed s i st).inFlight = s.inFlight := by
  rcases setLed_cases s i st with h | ⟨-, v, h, -⟩ <;> simp [h]

@[simp] theorem setLed_inputs (s : State) (i : Nat) (st : LedState) : (setLed s i st).inputs = s.inputs := by
  rcases setLed_cases s i st with h | ⟨-, v, h, -⟩ <;> simp [h]

theorem readBank_setLed_other (s : State) {i : Nat} (st : LedState) {id : BankId} (h : id ≠ ledBank i) :
    readBank (setLed s i st) id = readBank s id := by
  obtain e | ⟨-, v, e, -⟩ := setLed_cases s i st
  · rw [e]
  · rw [e, readBank_busWrite, readBank_writeBank_other _ _ _ _ h]

theorem setLed_bankA_of_gt (s : State) {i : Nat} (st : LedState) (h : 6 < i) : (setLed s i st).bankA = s.bankA :=
  readBank_setLed_other s (id := .a) st (by rw [ledBank_of_gt h]; nofun)

theorem setLed_bankB_of_le (s : State) {i : Nat} (st : LedState) (h : i ≤ 6) : (setLed s i st).bankB = s.bankB :=
  readBank_setLed_other s (id := .b) st (by rw [ledBank_of_le h]; nofun)

/-- The shadow changes at the address of the index's own bank alone. -/
theorem setLed_dev_read_other (s : State) {i : Nat} (st : LedState) {a : Nat} (h : a ≠ dataAddr s.cfg (ledBank i)) :
    (setLed s i st).dev.read a = s.dev.read a := by
  obtain e | ⟨-, v, e, -⟩ := setLed_cases s i st
  · rw [e]
  · rw [e, busWrite_dev, writeBank_dev, writeBank_cfg]
    exact Memory.read_write_other _ _ _ _ h

/-! ### What `setLed` shows (R96, R97) -/

/-- The bit of an accepted index that has one shows the state asked for (R96). -/
theorem setLed_getLsbD_own {s : State} {i : Nat} (st : LedState) (h : acceptsIndex s.cfg.idxHigh i = true)
    (hpos : ledPos i < 8) : (readBank (setLed s i st) (ledBank i)).getLsbD (ledPos i) = decide (st = .on) := by
  have hmask : (mask (ledPos i)).getLsbD (ledPos i) = true := (getLsbD_mask hpos _).trans (decide_eq_true rfl)
  cases st with
  | on => rw [setLed_on h, readBank_busWrite, readBank_writeBank_same, BitVec.getLsbD_or, hmask, Bool.or_true,
      decide_eq_true rfl]
  | off =>
    rw [decide_eq_false nofun]
    by_cases hbit : readBank s (ledBank i) &&& mask (ledPos i) = 0#8
    · rw [setLed_off_clear hbit]
      exact and_mask_eq_zero_iff.mp hbit
    · have hset : (readBank s (ledBank i)).getLsbD (ledPos i) = true := by
        rwa [and_mask_eq_zero_iff, Bool.not_eq_false] at hbit
      rw [setLed_off_set h hbit, readBank_busWrite, readBank_writeBank_same, BitVec.getLsbD_xor, hmask, hset,
        Bool.xor_self]

/-- Asking an LED for the state it has changes no bank. -/
theorem readBank_setLed_of_shown {s : State} {i : Nat} {st : LedState}
    (h : (readBank s (ledBank i)).getLsbD (ledPos i) = decide (st = .on)) (id : BankId) :
    readBank (setLed s i st) id = readBank s id := by
  cases hacc : acceptsIndex s.cfg.idxHigh i with
  | false => rw [setLed_ignored st hacc]
  | true =>
    refine BitVec.eq_of_getLsbD_eq fun q hq => ?_
    by_cases hown : ledBank i = id ∧ ledPos i = q
    · obtain ⟨rfl, rfl⟩ := hown
      rw [setLed_getLsbD_own st hacc hq, h]
    · exact setLed_getLsbD_other s st hq fun hb hp => hown ⟨hb, hp⟩

/-- `SETLED` of an LED to the state it has, for an accepted index: the banks stay, and the byte of the bank as it stands is
sent for ON, none for OFF (R97). -/
theorem setLed_of_shown {s : State} {i : Nat} {st : LedState} (hacc : acceptsIndex s.cfg.idxHigh i = true)
    (h : (readBank s (ledBank i)).getLsbD (ledPos i) = decide (st = .on)) :
    (setLed s i st).bankA = s.bankA ∧ (setLed s i st).bankB = s.bankB ∧
      (setLed s i st).trace = s.trace ++
        if st = .on then [dataCall s.cfg (ledBank i) (readBank s (ledBank i))] else [] := by
  have hsends : sendsCall s i st = decide (st = .on) := by
    rw [sendsCall, hacc, testBit_eq_getLsbD, h, Bool.or_self, Bool.true_and]
  refine ⟨readBank_setLed_of_shown h .a, readBank_setLed_of_shown h .b, ?_⟩
  simp only [setLed_trace, hsends, readBank_setLed_of_shown h, decide_eq_true_eq]

end Sys2Proof.Machine
end

section
/-! PROOFS. The LED Mapper: `SETLED` (R91 to R99). -/

namespace Sys2Proof.Machine

/-- Settles O20: the ON path of `setLed`, sent and completed, in either bank. -/
theorem setledOnAlwaysSendsTheUpdatedByte : Obligations.SetledOnAlwaysSendsTheUpdatedByte := by
  refine fun s i => ⟨fun h1 h6 => ?_, fun h7 htop => ?_⟩
  · have hacc := acceptsIndex_of_low h1 (h6.trans (by decide)) s.cfg.idxHigh
    rw [exec_setled_accepted _ hacc, setLed_on hacc, ledBank_of_le h6, ledPos_of_le h6, mask_eq_shiftLeft,
      complete_send_bankA, readBank_a]
  · have hacc : acceptsIndex s.cfg.idxHigh i = true :=
      acceptsIndex_iff.mpr ⟨by omega, by omega, htop.imp_right And.right⟩
    rw [exec_setled_accepted _ hacc, setLed_on hacc, ledBank_of_gt h7, ledPos_of_gt h7, mask_eq_shiftLeft,
      complete_send_bankB, readBank_b]

/-- Settles O21: the OFF path of `setLed` in either bank, completed whether or not the bit was set. -/
theorem setledOffSendsOnlyWhenTheBitWasSet : Obligations.SetledOffSendsOnlyWhenTheBitWasSet := by
  refine fun s i => ⟨fun h1 h6 => ?_, fun h7 htop => ?_⟩
  · have hacc := acceptsIndex_of_low h1 (h6.trans (by decide)) s.cfg.idxHigh
    rw [exec_setled_accepted _ hacc, setLed_off hacc, ledBank_of_le h6, ledPos_of_le h6, mask_eq_shiftLeft,
      apply_ite (complete · none), complete_send_bankA, readBank_a, complete]
  · have hacc : acceptsIndex s.cfg.idxHigh i = true :=
      acceptsIndex_iff.mpr ⟨by omega, by omega, htop.imp_right And.right⟩
    rw [exec_setled_accepted _ hacc, setLed_off hacc, ledBank_of_gt h7, ledPos_of_gt h7, mask_eq_shiftLeft,
      apply_ite (complete · none), complete_send_bankB, readBank_b, complete]

/-- Settles O22: the calls are those of `setLed_trace`, and the frame is `setLed`'s, field by field. -/
theorem setledTouchesOneBankWithAtMostOneCall : Obligations.SetledTouchesOneBankWithAtMostOneCall := by
  intro s t i st h
  obtain rfl := eq_of_exec_setled h
  refine ⟨⟨_, setLed_trace s i st, ?_, fun c hc => ?_⟩, setLed_bankB_of_le s st, setLed_bankA_of_gt s st,
    fun a => setLed_dev_read_other s st, by simp⟩
  · cases hacc : acceptsIndex s.cfg.idxHigh i with
    | false => simp [sendsCall, hacc]
    | true => cases st <;> simp [sendsCall, hacc, testBit, apply_ite List.length]
  · split at hc
    · exact List.mem_singleton.mp hc
    · cases hc

/-- Settles O23: `GETBANK` responds with the bank after `setLed`, whose bits are `setLed_getLsbD_own` and
`setLed_getLsbD_other`. -/
theorem setledShowsItsStateInItsOwnBitOnly : Obligations.SetledShowsItsStateInItsOwnBitOnly := by
  intro s i st h1 h14
  have hacc := acceptsIndex_of_low h1 h14 s.cfg.idxHigh
  have hpos : ledPos i < 8 := Nat.lt_succ_of_le (ledPos_le (by decide) h14)
  refine ⟨_, readBank (setLed s i st) (ledBank i), exec_setled_accepted st hacc, ?_, setLed_getLsbD_own st hacc hpos,
    fun q hq hne => setLed_getLsbD_other s st hq fun _ => hne.symm, setLed_bankB_of_le s st, setLed_bankA_of_gt s st⟩
  rw [exec, execGetbank, readBank_complete, complete]

/-- Settles O24: after the first `SETLED` the LED shows its state, so the second is `setLed_of_shown`. -/
theorem offTwiceSendsOnceOnTwiceSendsTwice : Obligations.OffTwiceSendsOnceOnTwiceSendsTwice := by
  intro s i h1 h14
  have hacc := acceptsIndex_of_low h1 h14
  have hpos : ledPos i < 8 := Nat.lt_succ_of_le (ledPos_le (by decide) h14)
  have hfirst := setLed_trace s i
  constructor
  · obtain ⟨hA, hB, hsecond⟩ := setLed_of_shown (s := complete (setLed s i .off) none) (hacc _)
      (setLed_getLsbD_own .off (hacc _) hpos)
    rw [if_neg nofun, List.append_nil] at hsecond
    refine ⟨_, _, exec_setled_accepted .off (hacc _), exec_setled_accepted .off (hacc _), ?_, hsecond, hA, hB⟩
    rw [newCalls_of_trace (t := complete _ none) (hsecond.trans (hfirst .off)), sendsCall_off (hacc _),
      apply_ite List.length, List.length_singleton, List.length_nil]
  · obtain ⟨hA, hB, hsecond⟩ := setLed_of_shown (s := complete (setLed s i .on) none) (hacc _)
      (setLed_getLsbD_own .on (hacc _) hpos)
    refine ⟨_, _, dataCall s.cfg (ledBank i) (readBank (setLed s i .on) (ledBank i)),
      exec_setled_accepted .on (hacc _), exec_setled_accepted .on (hacc _), ?_, hA, hB⟩
    rw [complete_trace, hsecond, complete_trace, hfirst, sendsCall_on (hacc _)]
    simp

/-- Settles O18: the gate in numbers; an index outside it is neither accepted nor refused. -/
theorem setledOutsideTheGateDoesNothing : Obligations.SetledOutsideTheGateDoesNothing := by
  refine ⟨fun _ => inGate_iff, fun s i st hi => exec_setled_ignored st (by omega) (fun hhigh => ?_) ?_⟩
  · have := highIndex_iff.mp hhigh
    omega
  · rw [Bool.eq_false_iff, ne_eq, acceptsIndex_iff]
    omega

/-- Settles O19: the two formulas of the map and their bounds. -/
theorem indexMapsToBankAndPosition : Obligations.IndexMapsToBankAndPosition := fun _ _ h16 =>
  ⟨fun h6 => ⟨ledBank_of_le h6, ledPos_of_le h6, by rw [ledPos_of_le h6]; omega⟩,
    fun h6 => ⟨ledBank_of_gt h6, ledPos_of_gt h6, ledPos_le (by decide) h16⟩⟩

/-- Settles O25: the mask of 15 and 16 is empty, so under `truncate` ON leaves the bank and OFF finds no bit; the other
policies do not accept them. -/
theorem highIndicesFollowTheirPolicy : Obligations.HighIndicesFollowTheirPolicy := by
  intro s i hi
  have hbank : ledBank i = .b := ledBank_of_gt (by omega)
  have hmask : mask (ledPos i) = 0#8 := mask_eq_zero (by rw [ledPos_of_gt (by omega)]; omega)
  refine ⟨fun hp => ?_, fun hp st => ?_, fun hp st => exec_setled_refused st (highIndex_iff.mpr (by omega)) hp⟩
  · have hacc : acceptsIndex s.cfg.idxHigh i = true := acceptsIndex_iff.mpr ⟨by omega, by omega, .inr hp⟩
    constructor
    · rw [exec_setled_accepted _ hacc, setLed_on hacc, hbank, hmask, BitVec.or_zero, complete_send_bankB, readBank_b]
    · rw [exec_setled_accepted _ hacc, setLed_off_clear (by rw [hmask, BitVec.and_zero]), complete]
  · refine exec_setled_ignored st (by omega) (fun _ => by rw [hp]; nofun) ?_
    rw [Bool.eq_false_iff, ne_eq, acceptsIndex_iff, hp]
    rintro ⟨-, -, h14 | htrunc⟩
    · omega
    · cases htrunc

end Sys2Proof.Machine
end

section
/-! PROOF SUPPORT. The bulk operations (spec/42_bulk_ops.md) as one loop that drives a run of LEDs in ascending order: what the
loop shows, and that it is the `SETLED`s of its turns. -/

namespace Sys2Proof.Machine

/-! ### What one `setLed` shows -/

/-- Two indices with the same bank and position are the same index (R92). -/
theorem eq_of_ledBank_ledPos {i k : Nat} (hi : 1 ≤ i) (hk : 1 ≤ k) (hb : ledBank i = ledBank k)
    (hp : ledPos i = ledPos k) : i = k := by
  obtain hi6 | hi6 := le_or_gt i 6 <;> obtain hk6 | hk6 := le_or_gt k 6
  · rw [ledPos_of_le hi6, ledPos_of_le hk6] at hp
    omega
  · rw [ledBank_of_le hi6, ledBank_of_gt hk6] at hb
    cases hb
  · rw [ledBank_of_gt hi6, ledBank_of_le hk6] at hb
    cases hb
  · rw [ledPos_of_gt hi6, ledPos_of_gt hk6] at hp
    omega

theorem ledLit_setLed_same (s : State) {k : Nat} (st : LedState) (h1 : 1 ≤ k) (h14 : k ≤ 14) :
    ledLit (setLed s k st) k = decide (st = .on) :=
  setLed_getLsbD_own st (acceptsIndex_of_low h1 h14 _) (Nat.lt_succ_of_le (ledPos_le (by decide) h14))

theorem ledLit_setLed_other (s : State) {i k : Nat} (st : LedState) (hi : 1 ≤ i) (h1 : 1 ≤ k) (h14 : k ≤ 14)
    (hne : i ≠ k) : ledLit (setLed s i st) k = ledLit s k :=
  setLed_getLsbD_other s st (Nat.lt_succ_of_le (ledPos_le (by decide) h14)) fun hb hp =>
    hne (eq_of_ledBank_ledPos hi h1 hb hp)

/-- A completion changes no LED. -/
@[simp] theorem ledLit_complete (s : State) (r : Option Byte) (k : Nat) : ledLit (complete s r) k = ledLit s k := by
  rw [ledLit, readBank_complete, ledLit]

/-! ### The loop over a run of LEDs -/

/-- LEDs `first .. first + count - 1` in ascending order, LED `i` driven to `want i`. -/
def driveLeds (first count : Nat) (want : Nat → LedState) (s : State) : State :=
  forRange first count (fun t i => setLed t i (want i)) s

/-- The `SETLED`s of the same run, in the same order. -/
def driveCommands (first count : Nat) (want : Nat → LedState) : List Instr :=
  (List.range' first count).map (fun i => .setled i (want i))

theorem setAll_eq_driveLeds (s : State) (st : LedState) : setAll s st = driveLeds 1 12 (fun _ => st) s := rfl

theorem lightBar_eq_driveLeds (s : State) (n : Nat) : lightBar s n = driveLeds 1 n (fun _ => .on) s := rfl

/-- The pixel at position p governs LED p + 1 (R111). -/
theorem showPattern_eq_driveLeds (s : State) (pixels : BitVec 12) :
    showPattern s pixels = driveLeds 1 12 (fun i => pixelState pixels (i - 1)) s := rfl

/-- One turn of the loop. -/
theorem driveLeds_succ (first count : Nat) (want : Nat → LedState) (s : State) :
    driveLeds first (count + 1) want s = driveLeds (first + 1) count want (setLed s first (want first)) := rfl

/-- An LED outside the run keeps its state. -/
theorem ledLit_driveLeds_other {first count k : Nat} (want : Nat → LedState) (s : State) (hf : 1 ≤ first) (h1 : 1 ≤ k)
    (h14 : k ≤ 14) (hk : k < first ∨ first + count ≤ k) : ledLit (driveLeds first count want s) k = ledLit s k :=
  forRange_keeps_in_range (P := fun t => ledLit t k = ledLit s k)
    (fun t i hlo hhi ht => (ledLit_setLed_other t (want i) (by omega) h1 h14 (by omega)).trans ht) rfl

/-- An LED of the run shows what it was driven to: its own turn sets it, and the later ones drive other LEDs. -/
theorem ledLit_driveLeds {first count k : Nat} (want : Nat → LedState) (s : State) (hf : 1 ≤ first)
    (hlo : first ≤ k) (hhi : k < first + count) (h14 : k ≤ 14) :
    ledLit (driveLeds first count want s) k = decide (want k = .on) := by
  induction count generalizing first s with
  | zero => omega
  | succ n ih =>
    rw [driveLeds_succ]
    obtain rfl | hlt := Nat.eq_or_lt_of_le hlo
    · rw [ledLit_driveLeds_other want _ (by omega) hf h14 (.inl (Nat.lt_succ_self _)), ledLit_setLed_same s _ hf h14]
    · exact ih _ (by omega) hlt (by omega)

/-! ### The loop as `SETLED` commands -/

/-- No operation reads the completions. -/
theorem sameButResponses_respectsOps : RespectsOps sameButResponses where
  cfg_eq h := (congrArg State.cfg h).symm
  bank_eq h id := by
    cases id with
    | a => exact (congrArg State.bankA h).symm
    | b => exact (congrArg State.bankB h).symm
  after_writeBank h id v := by
    cases id with
    | a => exact congrArg (writeBank · .a v) h
    | b => exact congrArg (writeBank · .b v) h
  after_busWrite h r d := congrArg (busWrite · r d) h
  after_complete h _ := h

@[simp] theorem sameButResponses_refl (s : State) : sameButResponses s s := rfl

/-- A completion on either side changes the completions alone. -/
@[simp] theorem sameButResponses_complete_left {s t : State} {r : Option Byte} :
    sameButResponses (complete s r) t ↔ sameButResponses s t := Iff.rfl

@[simp] theorem sameButResponses_complete_right {s t : State} {r : Option Byte} :
    sameButResponses s (complete t r) ↔ sameButResponses s t := Iff.rfl

theorem runAll_cons {i : Instr} {s t : State} (h : exec i s = .next t) (l : List Instr) :
    runAll (i :: l) s = runAll l t := by rw [runAll, h]

/-- The `SETLED`s of a run of LEDs within 1..14 all have a step, and end as the loop does. -/
theorem runAll_driveCommands {first count : Nat} (want : Nat → LedState) (hf : 1 ≤ first) (hlast : first + count ≤ 15)
    {s v : State} (h : sameButResponses s v) :
    ∃ u, runAll (driveCommands first count want) v = .next u ∧ sameButResponses (driveLeds first count want s) u := by
  induction count generalizing first s v with
  | zero => exact ⟨v, rfl, h⟩
  | succ n ih =>
    have hturn := sameButResponses_respectsOps.after_setLed h first (want first)
    have hstep := exec_setled_accepted (s := v) (want first) (acceptsIndex_of_low hf (by omega) _)
    obtain ⟨u, hu, hsame⟩ := ih (first := first + 1) (by omega) (by omega) (sameButResponses_complete_right.mpr hturn)
    exact ⟨u, (runAll_cons hstep _).trans hu, hsame⟩

/-! ### `SETALL`, `BARGRAPH`, `PATTERN` -/

theorem exec_setall (s : State) (st : LedState) : exec (.setall st) s = .next (complete (setAll s st) none) := rfl

theorem exec_pattern (s : State) (pixels : BitVec 12) :
    exec (.pattern pixels) s = .next (complete (showPattern s pixels) none) := rfl

/-- A `BARGRAPH` whose operands fit their ports is its operation and a completion. -/
theorem exec_bargraph (s : State) {value max : Nat} (hv : value < 65536) (hm : max < 65536) :
    exec (.bargraph value max) s = .next (complete (barGraph s value max) none) := if_pos ⟨hv, hm⟩

theorem barGuard_iff {value max : Nat} : barGuard value max = true ↔ value > max ∨ max = 0 := by
  rw [barGuard, Bool.or_eq_true, decide_eq_true_iff, decide_eq_true_iff]

theorem barGraph_of_guard (s : State) {value max : Nat} (h : barGuard value max = true) :
    barGraph s value max = setAll s .off := if_pos h

theorem barGraph_of_valid (s : State) {value max : Nat} (h : barGuard value max = false) :
    barGraph s value max = lightBar (setAll s .off) (scale s.cfg.barRound value max) :=
  if_neg (Bool.eq_false_iff.mp h)

theorem ledLit_setAll (s : State) (st : LedState) {k : Nat} (h1 : 1 ≤ k) (h12 : k ≤ 12) :
    ledLit (setAll s st) k = decide (st = .on) := by
  rw [setAll_eq_driveLeds, ledLit_driveLeds _ s le_rfl h1 (by omega) (by omega)]

/-- The bar on dark LEDs: LED k is lit iff the bar reaches it. -/
theorem ledLit_lightBar_setAll_off (s : State) (n : Nat) {k : Nat} (h1 : 1 ≤ k) (h12 : k ≤ 12) :
    ledLit (lightBar (setAll s .off) n) k = decide (k ≤ n) := by
  rw [lightBar_eq_driveLeds]
  by_cases hk : k ≤ n
  · rw [ledLit_driveLeds _ _ le_rfl h1 (by omega) (by omega), decide_eq_true rfl, decide_eq_true hk]
  · rw [ledLit_driveLeds_other _ _ le_rfl h1 (by omega) (.inr (by omega)), ledLit_setAll s _ h1 h12,
      decide_eq_false nofun, decide_eq_false hk]

/-- What `BARGRAPH` shows: nothing on an invalid range, else the LEDs up to the scaler's value (R103). -/
theorem ledLit_barGraph (s : State) (value max : Nat) {k : Nat} (h1 : 1 ≤ k) (h12 : k ≤ 12) :
    ledLit (barGraph s value max) k = (!barGuard value max && decide (k ≤ scale s.cfg.barRound value max)) := by
  cases hg : barGuard value max with
  | true => rw [barGraph_of_guard s hg, ledLit_setAll s _ h1 h12, decide_eq_false nofun, Bool.not_true, Bool.false_and]
  | false => rw [barGraph_of_valid s hg, ledLit_lightBar_setAll_off s _ h1 h12, Bool.not_false, Bool.true_and]

/-- The operand `state` for a pixel is ON iff the pixel is set (R111). -/
theorem pixelState_eq_on (pixels : BitVec 12) (p : Nat) :
    decide (pixelState pixels p = .on) = pixels.getLsbD p := by
  rw [pixelState]
  cases pixels.getLsbD p <;> rfl

theorem ledLit_showPattern (s : State) (pixels : BitVec 12) {p : Nat} (hp : p < 12) :
    ledLit (showPattern s pixels) (p + 1) = pixels.getLsbD p := by
  rw [showPattern_eq_driveLeds, ledLit_driveLeds _ s le_rfl (by omega) (by omega) (by omega), Nat.add_sub_cancel,
    pixelState_eq_on]

end Sys2Proof.Machine
end

section
/-! PROOFS. The bulk operations `SETALL`, `BARGRAPH`, `PATTERN` (R100, R103, R104, R109, R111). -/

namespace Sys2Proof.Machine

/-- Settles O28: the loop of `SETALL` and the twelve `SETLED`s of its turns. -/
theorem setallIsSetledOfOneToTwelve : Obligations.SetallIsSetledOfOneToTwelve := by
  intro s st
  obtain ⟨u, hrun, hsame⟩ :=
    runAll_driveCommands (first := 1) (count := 12) (fun _ => st) le_rfl (by decide) (sameButResponses_refl s)
  refine ⟨_, u, exec_setall s st, hrun, ?_⟩
  rwa [sameButResponses_complete_left, setAll_eq_driveLeds]

/-- Settles O33: on an invalid range the operation is `SETALL OFF`; on a valid one it is that and the loop of the bar, whose
`SETLED`s run on from the completed `SETALL OFF`. -/
theorem bargraphLightsExactlyOneToN : Obligations.BargraphLightsExactlyOneToN := by
  constructor
  · intro s value max hv hm hinvalid
    have hguard := barGuard_iff.mpr hinvalid
    refine ⟨_, _, exec_bargraph s hv hm, runAll_cons (exec_setall s .off) [], ?_, fun k h1 h12 => ?_⟩
    · rw [barGraph_of_guard s hguard]
      exact sameButResponses_refl _
    · rw [ledLit_complete, ledLit_barGraph s value max h1 h12, hguard, Bool.not_true, Bool.false_and]
  · intro s value max n hv hm hle hne hn
    have hguard : barGuard value max = false := by
      rw [Bool.eq_false_iff, ne_eq, barGuard_iff]
      omega
    have hscale : n = scale s.cfg.barRound value max := by
      rw [hn]
      cases s.cfg.barRound <;> rfl
    have hbound := scale_le_nLed s.cfg.barRound hguard
    rw [← hscale, nLed] at hbound
    obtain ⟨u, hrun, hsame⟩ := runAll_driveCommands (first := 1) (count := n) (fun _ => .on) le_rfl (by omega)
      (sameButResponses_complete_right (r := none) |>.mpr (sameButResponses_refl (setAll s .off)))
    refine ⟨_, u, exec_bargraph s hv hm, (runAll_cons (exec_setall s .off) _).trans hrun, ?_, fun k h1 h12 => ?_⟩
    · rwa [sameButResponses_complete_left, barGraph_of_valid s hguard, ← hscale, lightBar_eq_driveLeds]
    · rw [ledLit_complete, ledLit_barGraph s value max h1 h12, hguard, ← hscale, Bool.not_false, Bool.true_and]

/-- Settles O37: the loop of `PATTERN`, counted from LED 1, and the twelve `SETLED`s of its turns. -/
theorem patternShowsItsPixels : Obligations.PatternShowsItsPixels := by
  intro s pixels
  obtain ⟨u, hrun, hsame⟩ := runAll_driveCommands (first := 1) (count := 12) (fun i => pixelState pixels (i - 1)) le_rfl
    (by decide) (sameButResponses_refl s)
  refine ⟨_, u, exec_pattern s pixels, hrun, ?_, fun p hp => ?_⟩
  · rwa [sameButResponses_complete_left, showPattern_eq_driveLeds]
  · rw [ledLit_complete, ledLit_showPattern s pixels hp]

/-- Settles O32: past the port check the guard decides, and its path is `SETALL OFF`. -/
theorem bargraphGuardIsExactlySetallOff : Obligations.BargraphGuardIsExactlySetallOff := by
  refine fun s value max hv hm => ⟨fun hinvalid => ?_, barGuard_iff⟩
  rw [exec_bargraph s hv hm, barGraph_of_guard s (barGuard_iff.mpr hinvalid), exec_setall]

/-- Settles O36: the LEDs of `ledLit_barGraph`, with the guard and the scaler of the five cases computed under both roundings. -/
theorem bargraphEdgeCases : Obligations.BargraphEdgeCases := by
  intro s
  have hzero : scale s.cfg.barRound 0 1023 = 0 := by cases s.cfg.barRound <;> rfl
  have hfull : scale s.cfg.barRound 1023 1023 = 12 := by cases s.cfg.barRound <;> rfl
  have hhalf : scale s.cfg.barRound 512 1023 = 6 := by cases s.cfg.barRound <;> rfl
  have hvalid : barGuard 0 1023 = false ∧ barGuard 1023 1023 = false ∧ barGuard 512 1023 = false := by decide
  have hinvalid : barGuard 5 0 = true ∧ barGuard 1024 1023 = true := by decide
  refine ⟨_, _, _, _, _, exec_bargraph s (by decide) (by decide), exec_bargraph s (by decide) (by decide),
    exec_bargraph s (by decide) (by decide), exec_bargraph s (by decide) (by decide),
    exec_bargraph s (by decide) (by decide), fun k h1 h12 => ?_⟩
  have hdark : ¬ k ≤ 0 := by omega
  simp [ledLit_barGraph s _ _ h1 h12, hvalid, hinvalid, hzero, hfull, hhalf, hdark, h12]

end Sys2Proof.Machine
end

section
/-! PROOF SUPPORT. Writes to the device shadow that change nothing: writes to different registers commute, a register keeps the
last byte written, so a call that recorded its byte once is recorded again without effect. -/

namespace Sys2Proof.Machine

/-- The later write to a register replaces the earlier one. -/
@[simp] theorem Memory.write_write_same (m : Memory) (a : Nat) (u v : Byte) : (m.write a u).write a v = m.write a v := by
  induction m with
  | nil => simp [Memory.write]
  | cons c m ih =>
    obtain ⟨b, w⟩ := c
    obtain hlt | rfl | hgt := Nat.lt_trichotomy a b
    · simp [Memory.write, hlt]
    · simp [Memory.write]
    · simp [Memory.write, hgt.not_gt, hgt.ne', ih]

/-- Writes to different registers commute: where the two addresses stand to the head of the list decides it, or leaves it to the
tail. -/
theorem Memory.write_comm (m : Memory) {a b : Nat} (u v : Byte) (h : a ≠ b) :
    (m.write a u).write b v = (m.write b v).write a u := by
  induction m with
  | nil => grind [Memory.write]
  | cons c m ih => grind [Memory.write]

/-- Recording a call twice is recording it once. -/
theorem record_record_self (m : Memory) (c : BusWrite) : (m.record c).record c = m.record c :=
  Memory.write_write_same m c.addr c.data c.data

/-- A call whose byte its register holds is still recorded without effect after calls to other registers, or the same call. -/
theorem record_replayOn_of_record {m : Memory} {c : BusWrite} {l : List BusWrite} (hm : m.record c = m)
    (hl : ∀ d ∈ l, d.addr = c.addr → d = c) : (replayOn m l).record c = replayOn m l := by
  induction l generalizing m with
  | nil => exact hm
  | cons d l ih =>
    refine ih ?_ fun e he => hl e (List.mem_cons_of_mem _ he)
    by_cases hd : d.addr = c.addr
    · obtain rfl := hl d (List.mem_cons_self ..) hd
      exact record_record_self m d
    · calc (m.record d).record c = (m.record c).record d := Memory.write_comm _ _ _ hd
        _ = m.record d := by rw [hm]

/-- A call of a list, the only one of the list to its register, is recorded after the list without effect. -/
theorem record_replayOn_of_mem (m : Memory) {c : BusWrite} {l : List BusWrite} (hc : c ∈ l)
    (hl : ∀ d ∈ l, d.addr = c.addr → d = c) : (replayOn m l).record c = replayOn m l := by
  induction l generalizing m with
  | nil => cases hc
  | cons d l ih =>
    have htail : ∀ e ∈ l, e.addr = c.addr → e = c := fun e he => hl e (List.mem_cons_of_mem _ he)
    obtain rfl | hmem := List.mem_cons.mp hc
    · exact record_replayOn_of_record (m := m.record c) (record_record_self m c) htail
    · exact ih (m.record d) hmem htail

/-- Calls that are each recorded without effect leave the shadow. -/
theorem replayOn_eq_self {m : Memory} {l : List BusWrite} (h : ∀ c ∈ l, m.record c = m) : replayOn m l = m := by
  induction l with
  | nil => rfl
  | cons c l ih =>
    rw [replayOn, List.foldl_cons, h c (List.mem_cons_self ..)]
    exact ih fun d hd => h d (List.mem_cons_of_mem _ hd)

/-- A register holds the byte of a call that is recorded without effect. -/
theorem read_of_record_eq_self {m : Memory} {c : BusWrite} (h : m.record c = m) : m.read c.addr = some c.data := by
  rw [← h]
  exact Memory.read_write_same ..

/-- Under distinct register identifiers calls go to one address only if they go to one register (R5). -/
theorem callOf_addr_inj {c : Config} (hc : c.wellFormed = true) {r q : Reg} {u v : Byte} :
    (callOf c r u).addr = (callOf c q v).addr ↔ r = q := by
  rw [BusWrite.addr, BusWrite.addr, busAddr_inj]
  exact (and_iff_right rfl).trans (regByte_inj hc)

end Sys2Proof.Machine
end

section
/-! PROOF SUPPORT. The closed form of `SETALL OFF` (spec/42_bulk_ops.md R102): the six LEDs of one bank are one run of
positions, whose turns each clear one bit and send the byte if the bit was set. -/

namespace Sys2Proof.Machine

/-! ### Calls transferred one after the other -/

/-- A list of calls transferred, oldest first (R57). -/
def transferAll (s : State) (calls : List BusWrite) : State := calls.foldl transfer s

theorem transferAll_eq (s : State) (calls : List BusWrite) :
    transferAll s calls = { s with trace := s.trace ++ calls, dev := replayOn s.dev calls } := by
  induction calls generalizing s with
  | nil => simp [transferAll]
  | cons c l ih =>
    have htail := ih (transfer s c)
    rw [transfer_trace, List.append_assoc] at htail
    exact htail

theorem transferAll_append (s : State) (l k : List BusWrite) :
    transferAll s (l ++ k) = transferAll (transferAll s l) k := List.foldl_append

@[simp] theorem transferAll_cfg (s : State) (l : List BusWrite) : (transferAll s l).cfg = s.cfg := by
  rw [transferAll_eq]

@[simp] theorem transferAll_bankB (s : State) (l : List BusWrite) : (transferAll s l).bankB = s.bankB := by
  rw [transferAll_eq]

@[simp] theorem readBank_transferAll (s : State) (l : List BusWrite) (id : BankId) :
    readBank (transferAll s l) id = readBank s id := by
  rw [transferAll_eq]
  cases id <;> rfl

/-- No transfer reads or writes a bank. -/
theorem writeBank_transferAll (s : State) (l : List BusWrite) (id : BankId) (v : Byte) :
    writeBank (transferAll s l) id v = transferAll (writeBank s id v) l := by
  rw [transferAll_eq, transferAll_eq]
  cases id <;> rfl

/-- New banks, their calls and a completion. -/
theorem complete_transferAll (s : State) (a b : Byte) (l : List BusWrite) (r : Option Byte) :
    complete (transferAll (writeBank (writeBank s .a a) .b b) l) r = afterCommand s a b l r := by
  rw [transferAll_eq]
  rfl

@[simp] theorem writeBank_readBank (s : State) (id : BankId) : writeBank s id (readBank s id) = s := by cases id <;> rfl

/-! ### The bits a run of positions clears -/

/-- `low(k)` has the bits below `k` (spec/42_bulk_ops.md, shorthand). -/
theorem getLsbD_low {q : Nat} (hq : q < 8) (k : Nat) : (low k).getLsbD q = decide (q < k) := by
  rw [low, trunc8, BitVec.getLsbD_ofNat, Nat.testBit_two_pow_sub_one]
  simp [hq]

theorem and_not_low_zero (v : Byte) : v &&& ~~~low 0 = v := by
  have hlow : ~~~low 0 = BitVec.allOnes 8 := by decide
  rw [hlow, BitVec.and_allOnes]

theorem low_succ (n : Nat) : low (n + 1) = low n ||| mask n := by
  refine BitVec.eq_of_getLsbD_eq fun q hq => ?_
  simp only [BitVec.getLsbD_or, getLsbD_low hq, getLsbD_mask hq, Nat.lt_succ_iff_lt_or_eq, Bool.decide_or]

/-- Clearing the bits below `n` and then bit `n` clears the bits below `n + 1`. -/
theorem and_not_low_succ (v : Byte) (n : Nat) : v &&& ~~~low n &&& ~~~mask n = v &&& ~~~low (n + 1) := by
  rw [low_succ, BitVec.not_or, BitVec.and_assoc]

/-- The bits of `v` that `w` does not have. -/
theorem getLsbD_and_not {q : Nat} (hq : q < 8) (v w : Byte) :
    (v &&& ~~~w).getLsbD q = (v.getLsbD q && !w.getLsbD q) := by
  rw [BitVec.getLsbD_and, BitVec.getLsbD_not, decide_eq_true hq, Bool.true_and]

/-- Clearing the bits below `n` leaves bit `n`. -/
theorem getLsbD_and_not_low {n : Nat} (hn : n < 8) (v : Byte) : (v &&& ~~~low n).getLsbD n = v.getLsbD n := by
  rw [getLsbD_and_not hn, getLsbD_low hn, decide_eq_false (lt_irrefl n), Bool.not_false, Bool.and_true]

/-- The six LED bits cleared are the two others kept. -/
theorem and_not_low_six (v : Byte) : v &&& ~~~low 6 = v &&& highBits := by
  have hlow : ~~~low 6 = highBits := by decide
  rw [hlow]

/-- The exclusive-OR of `ClearBit` clears a set bit (R84). -/
theorem xor_mask_of_set {v : Byte} {pos : Nat} (h : v.getLsbD pos = true) : v ^^^ mask pos = v &&& ~~~mask pos := by
  refine BitVec.eq_of_getLsbD_eq fun q hq => ?_
  rw [BitVec.getLsbD_xor, getLsbD_and_not hq, getLsbD_mask hq]
  by_cases hqp : q = pos
  · simp [hqp, h]
  · simp [hqp]

/-- A clear bit is cleared without effect. -/
theorem and_not_mask_of_clear {v : Byte} {pos : Nat} (h : v.getLsbD pos = false) : v &&& ~~~mask pos = v := by
  refine BitVec.eq_of_getLsbD_eq fun q hq => ?_
  rw [getLsbD_and_not hq, getLsbD_mask hq]
  by_cases hqp : q = pos
  · simp [hqp, h]
  · simp [hqp]

/-! ### One turn, and the run of one bank -/

/-- The OFF path in one form, on a lit LED and on a dark one (R94). -/
theorem setLed_off_eq_transferAll {s : State} {i : Nat} (h : acceptsIndex s.cfg.idxHigh i = true) :
    setLed s i .off =
      transferAll (writeBank s (ledBank i) (readBank s (ledBank i) &&& ~~~mask (ledPos i)))
        (if (readBank s (ledBank i)).getLsbD (ledPos i) then
          [dataCall s.cfg (ledBank i) (readBank s (ledBank i) &&& ~~~mask (ledPos i))] else []) := by
  cases hbit : (readBank s (ledBank i)).getLsbD (ledPos i) with
  | false =>
    rw [setLed_off_clear (and_mask_eq_zero_iff.mpr hbit), and_not_mask_of_clear hbit, writeBank_readBank]
    rfl
  | true =>
    have hset : readBank s (ledBank i) &&& mask (ledPos i) ≠ 0#8 := by
      rw [ne_eq, and_mask_eq_zero_iff, hbit, Bool.not_eq_false]
    rw [setLed_off_set h hset, xor_mask_of_set hbit, busWrite, writeBank_cfg]
    rfl

/-- The LED of bit 0 of a bank (R92). -/
def firstLed : BankId → Nat
  | .a => 1
  | .b => 7

theorem ledBank_firstLed_add (id : BankId) {p : Nat} (hp : p < 6) : ledBank (firstLed id + p) = id := by
  cases id with
  | a => exact ledBank_of_le (by simp only [firstLed]; omega)
  | b => exact ledBank_of_gt (by simp only [firstLed]; omega)

theorem ledPos_firstLed_add (id : BankId) {p : Nat} (hp : p < 6) : ledPos (firstLed id + p) = p := by
  cases id with
  | a => exact (ledPos_of_le (by simp only [firstLed]; omega)).trans (Nat.add_sub_cancel_left 1 p)
  | b => exact (ledPos_of_gt (by simp only [firstLed]; omega)).trans (Nat.add_sub_cancel_left 7 p)

theorem acceptsIndex_firstLed_add (id : BankId) {p : Nat} (hp : p < 6) (policy : IdxHighPolicy) :
    acceptsIndex policy (firstLed id + p) = true := by
  cases id <;> exact acceptsIndex_of_low (by simp only [firstLed]; omega) (by simp only [firstLed]; omega) policy

/-- The calls of the first `n` positions of `SETALL OFF` to one bank that holds `v`; `offCalls` are those of all six. -/
def offCallsBelow (c : Config) (id : BankId) (v : Byte) (n : Nat) : List BusWrite :=
  (List.range n).flatMap (fun p => if v.getLsbD p then [dataCall c id (v &&& ~~~low (p + 1))] else [])

theorem offCallsBelow_six (c : Config) (id : BankId) (v : Byte) : offCallsBelow c id v 6 = offCalls c id v := rfl

theorem offCallsBelow_succ (c : Config) (id : BankId) (v : Byte) (n : Nat) :
    offCallsBelow c id v (n + 1) =
      offCallsBelow c id v n ++ if v.getLsbD n then [dataCall c id (v &&& ~~~low (n + 1))] else [] := by
  simp [offCallsBelow, List.range_succ]

/-- The last turn of the loop. -/
theorem driveLeds_succ_last (first count : Nat) (want : Nat → LedState) (s : State) :
    driveLeds first (count + 1) want s =
      setLed (driveLeds first count want s) (first + count) (want (first + count)) := by
  rw [driveLeds, forRange, List.range'_1_concat, List.foldl_append]
  rfl

/-- Switching off the first `n` LEDs of a bank clears the bits below `n`, one call for each that was set. -/
theorem driveLeds_off_bank (s : State) (id : BankId) {n : Nat} (hn : n ≤ 6) :
    driveLeds (firstLed id) n (fun _ => .off) s =
      transferAll (writeBank s id (readBank s id &&& ~~~low n)) (offCallsBelow s.cfg id (readBank s id) n) := by
  induction n with
  | zero =>
    rw [and_not_low_zero, writeBank_readBank]
    rfl
  | succ n ih =>
    have hread : readBank (driveLeds (firstLed id) n (fun _ => .off) s) id = readBank s id &&& ~~~low n := by
      rw [ih (by omega), readBank_transferAll, readBank_writeBank_same]
    rw [driveLeds_succ_last, setLed_off_eq_transferAll (acceptsIndex_firstLed_add id hn _), ledBank_firstLed_add id hn,
      ledPos_firstLed_add id hn, hread, getLsbD_and_not_low (by omega), and_not_low_succ, ih (by omega),
      writeBank_transferAll, writeBank_writeBank_same, transferAll_cfg, writeBank_cfg, ← transferAll_append,
      offCallsBelow_succ]

/-- `SETALL OFF` clears the LED bits of both banks, Bank A's calls before Bank B's (R102). -/
theorem setAll_off_eq (s : State) :
    setAll s .off =
      transferAll (writeBank (writeBank s .a (s.bankA &&& highBits)) .b (s.bankB &&& highBits))
        (offCalls s.cfg .a s.bankA ++ offCalls s.cfg .b s.bankB) := by
  have hsplit : setAll s .off =
      driveLeds (firstLed .b) 6 (fun _ => .off) (driveLeds (firstLed .a) 6 (fun _ => .off) s) := rfl
  rw [hsplit, driveLeds_off_bank _ .b le_rfl, driveLeds_off_bank _ .a le_rfl]
  simp only [offCallsBelow_six, and_not_low_six, writeBank_transferAll, transferAll_cfg, writeBank_cfg,
    transferAll_append, readBank_a, readBank_b, transferAll_bankB, writeBank_a_bankB]

end Sys2Proof.Machine
end

section
/-! PROOFS. `INIT` (spec/43_init.md R120, R121, R123, R126). -/

namespace Sys2Proof.Machine

/-- The two steps of the configuration are the four calls in order (R120, R121). -/
theorem configureDevice_eq (s : State) : configureDevice s = transferAll s (configCalls s.cfg) := rfl

/-- The calls of an `INIT` that finds the two banks of `s` (R120). -/
def initCalls (s : State) : List BusWrite :=
  configCalls s.cfg ++ offCalls s.cfg .a s.bankA ++ offCalls s.cfg .b s.bankB

/-- The state after an `INIT` in `s` (R120). -/
def afterInit (s : State) : State :=
  afterCommand s (s.bankA &&& highBits) (s.bankB &&& highBits) (initCalls s) none

/-- `INIT` in closed form: the configuration calls leave the banks as they are for `SETALL(OFF)` (R120). -/
theorem exec_init (s : State) : exec .init s = .next (afterInit s) := by
  have hA : (configureDevice s).bankA = s.bankA := rfl
  have hB : (configureDevice s).bankB = s.bankB := rfl
  have hcfg : (configureDevice s).cfg = s.cfg := rfl
  rw [exec, execInit, setAll_off_eq, hA, hB, hcfg, configureDevice_eq, writeBank_transferAll, writeBank_transferAll,
    ← transferAll_append, complete_transferAll, afterInit, initCalls, List.append_assoc]

/-- Settles O39: the closed form of `INIT`, its four configuration calls written out. -/
theorem initSendsTheConfigurationThenAllOff : Obligations.InitSendsTheConfigurationThenAllOff := exec_init

/-- A bank whose LEDs are dark costs `SETALL OFF` no call (R102). -/
theorem offCalls_and_highBits (c : Config) (id : BankId) (v : Byte) : offCalls c id (v &&& highBits) = [] := by
  have hdark : ∀ p < 6, highBits.getLsbD p = false := by decide
  refine List.flatMap_eq_nil_iff.mpr fun p hp => ?_
  rw [BitVec.getLsbD_and, hdark p (List.mem_range.mp hp), Bool.and_false, if_neg Bool.false_ne_true]

/-- `SETALL OFF` sends to a bank's data register only. -/
theorem exists_dataCall_of_mem_offCalls {c : Config} {id : BankId} {v : Byte} {d : BusWrite}
    (h : d ∈ offCalls c id v) : ∃ x, d = dataCall c id x := by
  obtain ⟨p, -, hp⟩ := List.mem_flatMap.mp h
  split at hp
  case isTrue => exact ⟨_, List.mem_singleton.mp hp⟩
  case isFalse => cases hp

/-- The configuration calls go to four different addresses (R5). -/
theorem nodup_configCalls_addr {c : Config} (hc : c.wellFormed = true) : ((configCalls c).map BusWrite.addr).Nodup := by
  simp [configCalls, callOf_addr_inj hc]

/-- No data register is a configuration register (R5). -/
theorem dataCall_addr_ne {c : Config} (hc : c.wellFormed = true) {w : BusWrite} (hw : w ∈ configCalls c) (id : BankId)
    (x : Byte) : (dataCall c id x).addr ≠ w.addr := by
  simp only [configCalls, List.mem_cons, List.not_mem_nil, or_false] at hw
  obtain rfl | rfl | rfl | rfl := hw <;> cases id <;> simp [dataCall, dataReg, callOf_addr_inj hc]

/-- `INIT` sends to a configuration register once. -/
theorem eq_of_addr_eq_of_mem_initCalls {s : State} (hc : s.cfg.wellFormed = true) {w d : BusWrite}
    (hw : w ∈ configCalls s.cfg) (hd : d ∈ initCalls s) (h : d.addr = w.addr) : d = w := by
  obtain (hconfig | hoff) | hoff := List.mem_append.mp hd |>.imp_left List.mem_append.mp
  · exact List.inj_on_of_nodup_map (nodup_configCalls_addr hc) hconfig hw h
  all_goals
    obtain ⟨x, rfl⟩ := exists_dataCall_of_mem_offCalls hoff
    exact absurd h (dataCall_addr_ne hc hw _ x)

/-- After `INIT` its configuration calls are recorded again without effect (R123). -/
theorem record_replayOn_initCalls {s : State} (hc : s.cfg.wellFormed = true) (m : Memory) {w : BusWrite}
    (hw : w ∈ configCalls s.cfg) : (replayOn m (initCalls s)).record w = replayOn m (initCalls s) :=
  record_replayOn_of_mem m (List.mem_append_left _ (List.mem_append_left _ hw)) fun _ hd =>
    eq_of_addr_eq_of_mem_initCalls hc hw hd

/-- A second `INIT` finds all LEDs dark and makes the configuration calls alone (R123). -/
theorem initCalls_afterInit (s : State) : initCalls (afterInit s) = configCalls s.cfg := by
  simp [initCalls, afterInit, offCalls_and_highBits]

/-- A second `INIT` leaves the shadow, which holds the bytes of the configuration calls already (R123). -/
theorem afterInit_afterInit_dev {s : State} (hc : s.cfg.wellFormed = true) :
    (afterInit (afterInit s)).dev = (afterInit s).dev := by
  rw [afterInit, afterCommand_dev, initCalls_afterInit]
  exact replayOn_eq_self fun _ => record_replayOn_initCalls hc s.dev

/-- After `INIT` each configuration register was last sent the byte of its call (R123). -/
theorem afterInit_dev_read {s : State} (hc : s.cfg.wellFormed = true) {w : BusWrite} (hw : w ∈ configCalls s.cfg) :
    (afterInit s).dev.read w.addr = some w.data :=
  read_of_record_eq_self (record_replayOn_initCalls hc s.dev hw)

/-- Settles O40: the closed form twice; the second `INIT` makes the configuration calls alone, and neither they nor
`SETALL(OFF)` on dark LEDs change anything. -/
theorem initTwiceLeavesTheSameEndState : Obligations.InitTwiceLeavesTheSameEndState := by
  intro s hc hA
  have hdev := afterInit_afterInit_dev hc
  have hbank : ∀ v : Byte, v &&& highBits &&& highBits = v &&& highBits := fun v => by
    rw [BitVec.and_assoc, BitVec.and_self]
  refine ⟨afterInit s, afterInit (afterInit s), exec_init s, exec_init _, hA, rfl, fun v hv => ?_, hbank _, hbank _,
    congrArg _ (initCalls_afterInit s), hdev⟩
  have hread : ∀ w ∈ configCalls s.cfg, v.dev.read w.addr = some w.data := fun w hw => by
    obtain rfl | rfl := hv
    · exact afterInit_dev_read hc hw
    · exact (congrArg (Memory.read · w.addr) hdev).trans (afterInit_dev_read hc hw)
  simp only [configCalls, List.forall_mem_cons] at hread
  obtain ⟨hdirA, hdirB, hpullupA, hpullupB, -⟩ := hread
  exact ⟨hdirA, hdirB, hpullupA, hpullupB⟩

end Sys2Proof.Machine
end

section
/-! PROOFS. Completion of every command (spec/60_exceptions.md R130). -/

namespace Sys2Proof.Machine

/-- A high index is 15 or 16. -/
theorem eq_of_highIndex {k : Nat} (h : highIndex k = true) : k = 15 ∨ k = 16 := by
  obtain ⟨h15, h16⟩ := highIndex_iff.mp h
  omega

/-- Settles O42: each command whose operands fit their ports is its operation and a completion. -/
theorem everyCommandCompletes : Obligations.EveryCommandCompletes := by
  intro s i hwf hrefuse
  cases i with
  | init => exact ⟨_, exec_init s⟩
  | setled k st =>
    refine ⟨_, exec_setled st (of_decide_eq_true hwf) fun hhigh hp => ?_⟩
    obtain ⟨hne15, hne16⟩ := hrefuse hp st
    obtain rfl | rfl := eq_of_highIndex hhigh
    · exact hne15 rfl
    · exact hne16 rfl
  | setall st => exact ⟨_, exec_setall s st⟩
  | bargraph value max =>
    rw [Instr.wellFormed, Bool.and_eq_true, decide_eq_true_iff, decide_eq_true_iff] at hwf
    obtain ⟨hvalue, hmax⟩ := hwf
    exact ⟨_, exec_bargraph s hvalue hmax⟩
  | pattern pixels => exact ⟨_, exec_pattern s pixels⟩
  | getbank id => exact ⟨_, rfl⟩

end Sys2Proof.Machine
end

section
/-! PROOF SUPPORT. The decoder reads a canonical word back as the command it encodes (spec/30_encoding.md R62 to R67, R71). -/

namespace Sys2Proof

/-- Every operand that fits its port is read back from the slice it was written to. -/
theorem decode_encode {i : Instr} (hwf : i.wellFormed = true) : decode (encode i) = .instr i := by
  have hop : (cmdOp (encode i)).toNat = (opcode i).toNat := congrArg BitVec.toNat (cmdOp_encode i)
  cases i with
  | init => exact decode_init hop
  | setled index state =>
    have hport : index < 256 := of_decide_eq_true hwf
    have hword := encode_setled_toNat hport state
    have hbit := (bitOfLedState state).isLt
    have hindex : (encode (.setled index state)).toNat % 256 = index := by omega
    have hstate : (encode (.setled index state)).toNat / 256 % 2 = (bitOfLedState state).toNat := by omega
    rw [decode_setled hop, hindex, hstate]
    cases state <;> rfl
  | setall state =>
    rw [decode_setall hop]
    cases state <;> rfl
  | bargraph value max =>
    rw [Instr.wellFormed, Bool.and_eq_true, decide_eq_true_iff, decide_eq_true_iff] at hwf
    obtain ⟨hv, hm⟩ := hwf
    have hword := encode_bargraph_toNat hv hm
    have hvalue : (encode (.bargraph value max)).toNat % 65536 = value := by omega
    have hmax : (encode (.bargraph value max)).toNat / 65536 % 65536 = max := by omega
    rw [decode_bargraph hop, hvalue, hmax]
  | pattern pixels =>
    have hword := encode_pattern_toNat pixels
    have hpixels : (encode (.pattern pixels)).toNat % 4096 = pixels.toNat := by omega
    rw [decode_pattern hop, hpixels, BitVec.ofNat_toNat, BitVec.setWidth_eq]
  | getbank id =>
    rw [decode_getbank hop]
    cases id <;> rfl

end Sys2Proof
end

section
/-! PROOF SUPPORT. What every command does last, and once: it completes (spec/30_encoding.md R73). -/

namespace Sys2Proof.Machine

/-- An accepted word that decodes to a command runs it (R77). -/
theorem runWord_instr {w : CmdWord} {i : Instr} (h : decode w = .instr i) (s : State) : runWord w s = exec i s := by
  simp [runWord, h]

/-- A `BARGRAPH` with a next state is its operation and a completion. -/
theorem eq_of_exec_bargraph {s t : State} {value max : Nat} (h : exec (.bargraph value max) s = .next t) :
    t = complete (barGraph s value max) none := by
  rw [exec, execBargraph] at h
  split at h
  case isTrue =>
    cases h
    rfl
  case isFalse => cases h

/-- The data of a command's completion: the bank byte for `GETBANK`, none otherwise (R73). -/
def responseTo (s : State) : Instr → Option Byte
  | .getbank id => some (readBank s id)
  | _ => none

/-- Before its one completion, which is the last thing it does, a command keeps what single-LED operations and configuration
writes keep (R73: completion after the last call). -/
theorem exec_completes_last {P : State → Prop} (hl : ∀ t i st, P t → P (setLed t i st))
    (hc : ∀ t, P t → P (configureDevice t)) {i : Instr} {s t : State} (h : exec i s = .next t) (hs : P s) :
    ∃ u, P u ∧ t = complete u (responseTo s i) := by
  cases i with
  | init =>
    cases h
    exact ⟨_, setAll_keeps hl .off (hc s hs), rfl⟩
  | setled index state => exact ⟨_, hl s index state hs, eq_of_exec_setled h⟩
  | setall state =>
    cases h
    exact ⟨_, setAll_keeps hl state hs, rfl⟩
  | bargraph value max => exact ⟨_, barGraph_keeps hl value max hs, eq_of_exec_bargraph h⟩
  | pattern pixels =>
    cases h
    exact ⟨_, showPattern_keeps hl pixels hs, rfl⟩
  | getbank id =>
    cases h
    exact ⟨s, hs, rfl⟩

/-- A command takes no input. -/
theorem exec_inputs {i : Instr} {s t : State} (h : exec i s = .next t) : t.inputs = s.inputs :=
  exec_keeps (P := fun u => u.inputs = s.inputs) (fun u k st hu => (setLed_inputs u k st).trans hu) (fun _ hu => hu)
    (fun _ _ hu => hu) h rfl

/-- A command adds one completion (R73). -/
theorem exec_responses {i : Instr} {s t : State} (h : exec i s = .next t) :
    t.responses = s.responses ++ [responseTo s i] := by
  obtain ⟨u, hu, rfl⟩ := exec_completes_last (P := fun u => u.responses = s.responses)
    (fun u k st hu => (setLed_responses u k st).trans hu) (fun _ hu => hu) h rfl
  rw [complete_responses, hu]

end Sys2Proof.Machine
end

section
/-! PROOFS. The block after reset (spec/70_reset_and_hazards.md R152). -/

namespace Sys2Proof.Machine

/-- Settles O4: the idle block takes the word, which decodes to the command it encodes; off the policy `refuse` the command
has a next state, with one completion more than at reset. -/
theorem anyCommandIsAcceptedFirstAfterReset : Obligations.AnyCommandIsAcceptedFirstAfterReset := by
  refine ⟨fun _ => rfl, rfl, fun c i hwf hpolicy => ?_⟩
  obtain ⟨t, ht⟩ := everyCommandCompletes { State.reset with cfg := c } i hwf fun hrefuse => absurd hrefuse hpolicy
  refine ⟨t, ?_, exec_inputs ht, congrArg List.length (exec_responses ht)⟩
  rw [step_command_idle rfl rfl, runWord_instr (decode_encode hwf)]
  exact ht

end Sys2Proof.Machine
end

section
/-! PROOFS. Decode of encode (spec/30_encoding.md section 3). -/

namespace Sys2Proof.Machine

/-- Settles O9: the decoder reads every operand back from its slice of the canonical word. -/
theorem decodeOfEncodeIsTheCommand : Obligations.DecodeOfEncodeIsTheCommand := fun _ => decode_encode

end Sys2Proof.Machine
end

section
/-! PROOF SUPPORT. The Bus Writer's pacing (spec/20_memory.md R55, R56): a command in flight is a list of calls that are
presented one after the other, and it does not matter how many are accepted at a time. -/

namespace Sys2Proof.Machine

/-! ### Calls presented one after the other -/

/-- A list of calls presented and transferred, oldest first (R56, R57). -/
def presentAll (s : State) (calls : List BusWrite) : State := calls.foldl present s

@[simp] theorem presentAll_nil (s : State) : presentAll s [] = s := rfl

@[simp] theorem presentAll_cons (s : State) (c : BusWrite) (l : List BusWrite) :
    presentAll s (c :: l) = presentAll (present s c) l := rfl

theorem presentAll_append (s : State) (l k : List BusWrite) :
    presentAll s (l ++ k) = presentAll (presentAll s l) k := List.foldl_append

/-- A presented call shows in the bank its register mirrors, if it mirrors one, and in nothing else (R56). -/
theorem mirror_eq (s : State) (c : BusWrite) :
    mirror s c =
      { s with
        bankA := if c.reg = s.cfg.regDataA then c.data else s.bankA
        bankB := if c.reg ≠ s.cfg.regDataA ∧ c.reg = s.cfg.regDataB then c.data else s.bankB } := by
  unfold mirror
  split
  case isTrue hA => simp [hA]
  case isFalse hA =>
    split
    case isTrue hB => rw [if_pos ⟨hA, hB⟩]
    case isFalse hB => rw [if_neg fun h => hB h.2]

/-- A call held on the port and then transferred shows in its bank once. -/
@[simp] theorem mirror_mirror_self (s : State) (c : BusWrite) : mirror (mirror s c) c = mirror s c := by
  rw [mirror_eq (mirror s c), mirror_eq s]
  grind

@[simp] theorem present_mirror_self (s : State) (c : BusWrite) : present (mirror s c) c = present s c := by
  rw [present, mirror_mirror_self, present]

/-- Only the banks depend on which registers are mirrored: the trace and the shadow take every call. -/
theorem presentAll_eq (s : State) (l : List BusWrite) :
    presentAll s l =
      { s with
        bankA := (presentAll s l).bankA
        bankB := (presentAll s l).bankB
        trace := s.trace ++ l
        dev := replayOn s.dev l } := by
  induction l generalizing s with
  | nil => simp
  | cons c l ih =>
    rw [presentAll_cons, ih (present s c)]
    simp [present, transfer, mirror_eq, replayOn]

@[simp] theorem presentAll_cfg (s : State) (l : List BusWrite) : (presentAll s l).cfg = s.cfg := by rw [presentAll_eq]

@[simp] theorem presentAll_trace (s : State) (l : List BusWrite) : (presentAll s l).trace = s.trace ++ l := by
  rw [presentAll_eq]

@[simp] theorem presentAll_dev (s : State) (l : List BusWrite) : (presentAll s l).dev = replayOn s.dev l := by
  rw [presentAll_eq]

@[simp] theorem presentAll_history (s : State) (l : List BusWrite) : (presentAll s l).history = s.history := by
  rw [presentAll_eq]

@[simp] theorem presentAll_responses (s : State) (l : List BusWrite) : (presentAll s l).responses = s.responses := by
  rw [presentAll_eq]

@[simp] theorem presentAll_inFlight (s : State) (l : List BusWrite) : (presentAll s l).inFlight = s.inFlight := by
  rw [presentAll_eq]

@[simp] theorem presentAll_inputs (s : State) (l : List BusWrite) : (presentAll s l).inputs = s.inputs := by
  rw [presentAll_eq]

/-- Presenting a call reads neither the in-flight slot nor the inputs. -/
theorem presentAll_with_inFlight (s : State) (x : Option InFlight) (l : List BusWrite) :
    presentAll { s with inFlight := x } l = { presentAll s l with inFlight := x } := by
  induction l generalizing s with
  | nil => rfl
  | cons c l ih =>
    have hturn : present { s with inFlight := x } c = { present s c with inFlight := x } := by
      simp only [present, transfer, mirror_eq]
    rw [presentAll_cons, hturn, ih, presentAll_cons]

theorem presentAll_with_inputs (s : State) (x : List Input) (l : List BusWrite) :
    presentAll { s with inputs := x } l = { presentAll s l with inputs := x } := by
  induction l generalizing s with
  | nil => rfl
  | cons c l ih =>
    have hturn : present { s with inputs := x } c = { present s c with inputs := x } := by
      simp only [present, transfer, mirror_eq]
    rw [presentAll_cons, hturn, ih, presentAll_cons]

/-! ### A command with calls still to come -/

/-- The command that will respond `r`, with the calls `l` still to be accepted: with none left it completes, otherwise the
block holds the first of them on the port (R55, R73). -/
def awaiting (s : State) (l : List BusWrite) (r : Option Byte) : State :=
  match l with
  | [] => { s with responses := s.responses ++ [r], inFlight := none }
  | c :: cs => { mirror s c with inFlight := some { calls := c :: cs, response := r } }

/-- A block with a command in flight accepts `n` calls and awaits the rest. -/
theorem advance_eq_awaiting {s : State} {f : InFlight} (h : s.inFlight = some f) (n : Nat) :
    advance n s = awaiting (presentAll s (f.calls.take n)) (f.calls.drop n) f.response := by
  rw [advance, h]
  cases hd : f.calls.drop n <;> simp [hd, awaiting, presentAll]

/-- Neither the in-flight slot nor what the block does next depends on the slot's old content. -/
theorem awaiting_presentAll_with_inFlight (s : State) (x : Option InFlight) (l k : List BusWrite) (r : Option Byte) :
    awaiting (presentAll { s with inFlight := x } l) k r = awaiting (presentAll s l) k r := by
  rw [presentAll_with_inFlight]
  cases k <;> simp [awaiting, mirror_eq]

/-- A command the Bus Writer stalls has its first `k` calls accepted and awaits the rest (R158). -/
theorem stallAfter_eq_awaiting (k : Nat) (s u : State) :
    stallAfter k s u =
      awaiting (presentAll s ((newCalls s u).take k)) ((newCalls s u).drop k)
        ((u.responses.drop s.responses.length).headD none) :=
  (advance_eq_awaiting rfl k).trans (awaiting_presentAll_with_inFlight s _ _ _ _)

/-- The call held on the port is the first to be accepted, so accepting more calls is accepting them all at once. -/
theorem advance_awaiting (n : Nat) (s : State) (l : List BusWrite) (r : Option Byte) :
    advance n (awaiting s l r) = awaiting (presentAll s (l.take n)) (l.drop n) r := by
  cases l with
  | nil => rw [advance_idle n rfl, List.take_nil, List.drop_nil, presentAll_nil]
  | cons c l =>
    refine (advance_eq_awaiting rfl n).trans ((awaiting_presentAll_with_inFlight (mirror s c) _ _ _ _).trans ?_)
    cases n with
    | zero => simp [awaiting]
    | succ n => simp

theorem pendingCalls_busy {s : State} {f : InFlight} (h : s.inFlight = some f) : pendingCalls s = f.calls := by
  rw [pendingCalls, h]

@[simp] theorem pendingCalls_awaiting (s : State) (l : List BusWrite) (r : Option Byte) :
    pendingCalls (awaiting s l r) = l := by cases l <;> rfl

/-- With every call accepted the command has completed. -/
theorem settled_awaiting (s : State) (l : List BusWrite) (r : Option Byte) :
    settled (awaiting s l r) = awaiting (presentAll s l) [] r := by
  rw [settled, pendingCalls_awaiting, advance_awaiting, List.take_length, List.drop_length]

/-- The completion of a command that has no call left. -/
theorem awaiting_nil {s : State} (h : s.inFlight = none) (r : Option Byte) : awaiting s [] r = complete s r := by
  rw [awaiting, complete, h]

/-- The Bus Writer reads no input. -/
theorem advance_with_inputs (n : Nat) (s : State) (x : List Input) :
    advance n { s with inputs := x } = { advance n s with inputs := x } := by
  obtain h | ⟨f, h⟩ := Option.eq_none_or_eq_some s.inFlight
  · rw [advance_idle n h, advance_idle (s := { s with inputs := x }) n h]
  · rw [advance_eq_awaiting h n, advance_eq_awaiting (s := { s with inputs := x }) h n, presentAll_with_inputs]
    cases f.calls.drop n <;> simp [awaiting, mirror_eq]

/-! What a block that awaits calls has in common with the state it presents them from. -/
@[simp] theorem awaiting_cfg (s : State) (l : List BusWrite) (r : Option Byte) : (awaiting s l r).cfg = s.cfg := by
  cases l <;> simp [awaiting]
@[simp] theorem awaiting_dev (s : State) (l : List BusWrite) (r : Option Byte) : (awaiting s l r).dev = s.dev := by
  cases l <;> simp [awaiting]
@[simp] theorem awaiting_trace (s : State) (l : List BusWrite) (r : Option Byte) :
    (awaiting s l r).trace = s.trace := by cases l <;> simp [awaiting]
@[simp] theorem awaiting_history (s : State) (l : List BusWrite) (r : Option Byte) :
    (awaiting s l r).history = s.history := by cases l <;> simp [awaiting]
@[simp] theorem awaiting_inputs (s : State) (l : List BusWrite) (r : Option Byte) :
    (awaiting s l r).inputs = s.inputs := by cases l <;> simp [awaiting]

end Sys2Proof.Machine
end

section
/-! PROOF SUPPORT. A command as the calls it presents (spec/20_memory.md R56): every change of a bank is shown by the call
that follows it, so presenting a command's calls to the state before it gives the state after it. -/

namespace Sys2Proof.Machine

/-- A new value of a bank, sent to its data register, is one presented call (R56). -/
theorem present_dataCall {s : State} (hc : s.cfg.wellFormed = true) (id : BankId) (v : Byte) :
    present s (dataCall s.cfg id v) = busWrite (writeBank s id v) (dataReg id) v := by
  have hmirror : mirror s (dataCall s.cfg id v) = writeBank s id v := by
    cases id with
    | a => exact if_pos rfl
    | b =>
      have hne : s.cfg.regDataB ≠ s.cfg.regDataA := fun h => nomatch (regByte_inj hc (r := .dataB) (q := .dataA)).mp h
      exact (if_neg hne).trans (if_pos rfl)
  rw [present, hmirror, busWrite, writeBank_cfg, dataCall]

/-- A call to a register that mirrors no bank is presented as it is. -/
theorem present_callOf {s : State} (hc : s.cfg.wellFormed = true) {r : Reg} (hr : ∀ id, r ≠ dataReg id) (d : Byte) :
    present s (callOf s.cfg r d) = busWrite s r d := by
  have hne : ∀ id, regByte s.cfg r ≠ regByte s.cfg (dataReg id) := fun id h => hr id ((regByte_inj hc).mp h)
  have hmirror : mirror s (callOf s.cfg r d) = s := (if_neg (hne .a)).trans (if_neg (hne .b))
  rw [present, hmirror, busWrite]

/-- `t` is `s` after some presented calls. -/
def PresentedFrom (s t : State) : Prop := ∃ calls, t = presentAll s calls

theorem PresentedFrom.after_present {s t : State} (h : PresentedFrom s t) (c : BusWrite) :
    PresentedFrom s (present t c) := by
  obtain ⟨calls, rfl⟩ := h
  exact ⟨calls ++ [c], by simp [presentAll_append]⟩

theorem PresentedFrom.cfg_eq {s t : State} (h : PresentedFrom s t) : t.cfg = s.cfg := by
  obtain ⟨calls, rfl⟩ := h
  exact presentAll_cfg s calls

theorem PresentedFrom.after_setLed {s t : State} (h : PresentedFrom s t) (hc : s.cfg.wellFormed = true) (k : Nat)
    (st : LedState) : PresentedFrom s (setLed t k st) := by
  obtain e | ⟨-, v, e, -⟩ := setLed_cases t k st
  · rwa [e]
  · rw [e, ← present_dataCall (h.cfg_eq ▸ hc)]
    exact h.after_present _

theorem PresentedFrom.after_configureDevice {s t : State} (h : PresentedFrom s t) (hc : s.cfg.wellFormed = true) :
    PresentedFrom s (configureDevice t) := by
  have hne : ∀ id, ∀ r ∈ [Reg.dirA, .dirB, .pullupA, .pullupB], r ≠ dataReg id := fun id => by cases id <;> decide
  have hsend : ∀ {u}, PresentedFrom s u → ∀ r ∈ [Reg.dirA, .dirB, .pullupA, .pullupB], ∀ d,
      PresentedFrom s (busWrite u r d) := by
    intro u hu r hr d
    rw [← present_callOf (hu.cfg_eq ▸ hc) fun id => hne id r hr]
    exact hu.after_present _
  have h1 := hsend h .dirA (by decide) dirInit
  have h2 := hsend h1 .dirB (by decide) dirInit
  have h3 := hsend h2 .pullupA (by decide) pullupInit
  exact hsend h3 .pullupB (by decide) pullupInit

/-- A command ends as its new calls presented and its completion (R56, R73). -/
theorem exec_eq_complete_presentAll {s u : State} {i : Instr} (hc : s.cfg.wellFormed = true) (h : exec i s = .next u) :
    u = complete (presentAll s (newCalls s u)) (responseTo s i) := by
  obtain ⟨v, ⟨calls, rfl⟩, rfl⟩ := exec_completes_last (P := PresentedFrom s) (fun _ k st ht => ht.after_setLed hc k st)
    (fun _ ht => ht.after_configureDevice hc) h ⟨[], rfl⟩
  have hcalls : newCalls s (complete (presentAll s calls) (responseTo s i)) = calls :=
    newCalls_of_trace (presentAll_trace s calls)
  rw [hcalls]

end Sys2Proof.Machine
end

section
/-! PROOF SUPPORT. The invariant of the machine (spec/10_state.md R33) for a command on its way: it is a property of a state
and the calls still to be presented from it, which presenting a call keeps. -/

namespace Sys2Proof.Machine

/-- A call the block can make leaves bits 7 and 6 of Bank A `0b00` (R23). -/
theorem data_highBits_of_legalCall {c : Config} (hc : c.wellFormed = true) {w : BusWrite} (h : legalCall c w = true)
    (hw : w.reg = c.regDataA) : w.data &&& highBits = 0x00#8 := by
  obtain ⟨⟨hB, hdirA, hdirB, hpullupA, hpullupB⟩, -⟩ :
      (c.regDataA ≠ c.regDataB ∧ c.regDataA ≠ c.regDirA ∧ c.regDataA ≠ c.regDirB ∧ c.regDataA ≠ c.regPullupA ∧
        c.regDataA ≠ c.regPullupB) ∧ [c.regDataB, c.regDirA, c.regDirB, c.regPullupA, c.regPullupB].Nodup := by
    simpa using List.nodup_cons.mp (of_decide_eq_true hc : c.regBytes.Nodup)
  obtain ⟨-, hdata⟩ : w.dev = c.devAddr ∧ w.data &&& highBits = 0x00#8 := by
    simpa [legalCall, hw, hB, hdirA, hdirB, hpullupA, hpullupB] using h
  exact hdata

/-- The invariant of a command on its way: `calls` are still to be presented from `s`, and with them the banks and the
shadow will agree. -/
structure Underway (s : State) (calls : List BusWrite) : Prop where
  cfg_wf : s.cfg.wellFormed = true
  bankA_high : s.bankA &&& highBits = 0x00#8
  dev_wf : s.dev.wf = true
  dev_replay : s.dev = replayOn [] s.trace
  calls_legal : ∀ c ∈ s.history ++ s.trace ++ calls, legalCall s.cfg c = true
  consistent : ∀ id, Consistent (presentAll s calls) id

/-- A held call shows in a bank already, and leaves bits 7 and 6 of Bank A. -/
theorem mirror_bankA_highBits {s : State} (hc : s.cfg.wellFormed = true) (hA : s.bankA &&& highBits = 0x00#8)
    {c : BusWrite} (hl : legalCall s.cfg c = true) : (mirror s c).bankA &&& highBits = 0x00#8 := by
  rw [mirror_eq]
  by_cases hreg : c.reg = s.cfg.regDataA
  · simpa [hreg] using data_highBits_of_legalCall hc hl hreg
  · simpa [hreg] using hA

/-- One call presented. -/
theorem Underway.after_present {s : State} {c : BusWrite} {calls : List BusWrite} (h : Underway s (c :: calls)) :
    Underway (present s c) calls where
  cfg_wf := by simpa [present] using h.cfg_wf
  bankA_high := mirror_bankA_highBits h.cfg_wf h.bankA_high (h.calls_legal c (by simp))
  dev_wf := by simpa [present] using Memory.record_wf c h.dev_wf
  dev_replay := by simp [present, replayOn, h.dev_replay]
  calls_legal := by simpa [present] using h.calls_legal
  consistent := h.consistent

/-- Any number of calls presented. -/
theorem Underway.after_presentAll {s : State} {l calls : List BusWrite} (h : Underway s (l ++ calls)) :
    Underway (presentAll s l) calls := by
  induction l generalizing s with
  | nil => exact h
  | cons c l ih => exact ih h.after_present

/-- Consistency speaks of the parameters, the shadow and the banks alone. -/
theorem consistent_awaiting_nil {s : State} {r : Option Byte} {id : BankId} :
    Consistent (awaiting s [] r) id ↔ Consistent s id := by cases id <;> rfl

/-- What is on its way when the block awaits calls makes the machine's invariant. -/
theorem Underway.inv_awaiting {s : State} {calls : List BusWrite} (h : Underway s calls) (r : Option Byte) :
    Inv (awaiting s calls r) where
  cfg_wf := by simpa using h.cfg_wf
  bankA_high := by
    cases calls with
    | nil => exact h.bankA_high
    | cons c calls => exact mirror_bankA_highBits h.cfg_wf h.bankA_high (h.calls_legal c (by simp))
  dev_wf := by simpa using h.dev_wf
  dev_replay := by simpa using h.dev_replay
  calls_legal := by
    rw [List.all_eq_true, awaiting_history, awaiting_trace, awaiting_cfg, pendingCalls_awaiting]
    exact h.calls_legal
  holds_call := by
    cases calls with
    | nil => nofun
    | cons c calls => rintro _ ⟨⟩ ⟨⟩
  consistent id := by
    rw [settled_awaiting, consistent_awaiting_nil]
    exact h.consistent id

/-- The machine's invariant speaks of the calls in flight as on their way. -/
theorem Inv.underway {s : State} (h : Inv s) : Underway s (pendingCalls s) where
  cfg_wf := h.cfg_wf
  bankA_high := h.bankA_high
  dev_wf := h.dev_wf
  dev_replay := h.dev_replay
  calls_legal := List.all_eq_true.mp h.calls_legal
  consistent id := by
    have hid := h.consistent id
    obtain hf | ⟨f, hf⟩ := Option.eq_none_or_eq_some s.inFlight
    · rwa [settled_idle hf, ← presentAll_nil s, ← pendingCalls_idle hf] at hid
    · rwa [settled, advance_eq_awaiting hf, pendingCalls_busy hf, List.take_length, List.drop_length,
        consistent_awaiting_nil, ← pendingCalls_busy hf] at hid

/-! ### The steps -/

/-- The Bus Writer accepting calls keeps the invariant. -/
theorem Inv.after_advance {s : State} (h : Inv s) (n : Nat) : Inv (advance n s) := by
  obtain hf | ⟨f, hf⟩ := Option.eq_none_or_eq_some s.inFlight
  · rwa [advance_idle n hf]
  · have hcalls : pendingCalls s = f.calls.take n ++ f.calls.drop n := by
      rw [List.take_append_drop, pendingCalls_busy hf]
    rw [advance_eq_awaiting hf]
    exact Underway.inv_awaiting (hcalls ▸ h.underway).after_presentAll _

/-- The invariant does not depend on what the environment does next, also while a command is in flight. -/
theorem Inv.with_any_inputs {s : State} (h : Inv s) (x : List Input) : Inv { s with inputs := x } where
  cfg_wf := h.cfg_wf
  bankA_high := h.bankA_high
  dev_wf := h.dev_wf
  dev_replay := h.dev_replay
  calls_legal := h.calls_legal
  holds_call := h.holds_call
  consistent id := by
    have hsettled : settled { s with inputs := x } = { settled s with inputs := x } := advance_with_inputs _ s x
    rw [hsettled]
    have hid := h.consistent id
    cases id <;> exact hid

/-- No index reaches bits 7 and 6 of Bank A (R23). -/
theorem setLed_bankA_highBits (s : State) (k : Nat) (st : LedState) :
    (setLed s k st).bankA &&& highBits = s.bankA &&& highBits := by
  have hpos : ∀ q, 6 ≤ q → ledBank k = .a → ledPos k ≠ q := by
    intro q hq hb
    have h6 : k ≤ 6 := by
      by_contra hgt
      rw [ledBank_of_gt (Nat.lt_of_not_le hgt)] at hb
      cases hb
    rw [ledPos_of_le h6]
    omega
  exact and_highBits_eq_iff.mpr ⟨setLed_getLsbD_other s (id := .a) st (by decide) (hpos 6 le_rfl),
    setLed_getLsbD_other s (id := .a) st (by decide) (hpos 7 (by decide))⟩

/-- Only calls the block can make were made, and the block can go on to make such calls only. -/
structure MadeLegalCalls (s : State) : Prop where
  bankA_high : s.bankA &&& highBits = 0x00#8
  calls_legal : ∀ c ∈ s.history ++ s.trace, legalCall s.cfg c = true

theorem MadeLegalCalls.after_busWrite {s : State} (h : MadeLegalCalls s) {r : Reg} {d : Byte}
    (hl : legalCall s.cfg (callOf s.cfg r d) = true) : MadeLegalCalls (busWrite s r d) where
  bankA_high := h.bankA_high
  calls_legal c hmem := by
    rw [busWrite_history, busWrite_trace, ← List.append_assoc] at hmem
    obtain hold | hnew := List.mem_append.mp hmem
    · exact h.calls_legal c hold
    · rwa [List.mem_singleton.mp hnew]

theorem legalCall_dataCall {c : Config} {id : BankId} {v : Byte} (h : id = .a → v &&& highBits = 0x00#8) :
    legalCall c (dataCall c id v) = true := by
  cases id with
  | a => simp [legalCall, dataCall, callOf, dataReg, regByte, h rfl]
  | b => simp [legalCall, dataCall, callOf, dataReg, regByte]

theorem MadeLegalCalls.after_setLed {s : State} (h : MadeLegalCalls s) (k : Nat) (st : LedState) :
    MadeLegalCalls (setLed s k st) := by
  have hA := (setLed_bankA_highBits s k st).trans h.bankA_high
  obtain e | ⟨-, v, e, -⟩ := setLed_cases s k st
  · rwa [e]
  · rw [e] at hA ⊢
    have hv : ledBank k = .a → v &&& highBits = 0x00#8 := by
      intro hb
      rwa [hb] at hA
    have hwrite : MadeLegalCalls (writeBank s (ledBank k) v) := ⟨hA, by simpa using h.calls_legal⟩
    refine hwrite.after_busWrite ?_
    rw [writeBank_cfg]
    exact legalCall_dataCall hv

theorem MadeLegalCalls.after_configureDevice {s : State} (h : MadeLegalCalls s) :
    MadeLegalCalls (configureDevice s) := by
  have hl : ∀ c ∈ configCalls s.cfg, legalCall s.cfg c = true := by
    simp [configCalls, legalCall, callOf, regByte]
  simp only [configCalls, List.forall_mem_cons] at hl
  obtain ⟨hdirA, hdirB, hpullupA, hpullupB, -⟩ := hl
  exact (((h.after_busWrite hdirA).after_busWrite hdirB).after_busWrite hpullupA).after_busWrite hpullupB

theorem MadeLegalCalls.after_exec {s u : State} {i : Instr} (h : MadeLegalCalls s) (he : exec i s = .next u) :
    MadeLegalCalls u :=
  exec_keeps (P := MadeLegalCalls) (fun _ k st ht => ht.after_setLed k st) (fun _ ht => ht.after_configureDevice)
    (fun _ _ ht => ⟨ht.bankA_high, ht.calls_legal⟩) he h

/-- The calls of a command an idle block takes are on their way when it is accepted. -/
theorem Inv.underway_of_exec {s u : State} {i : Instr} (h : Inv s) (hf : s.inFlight = none) (he : exec i s = .next u) :
    Underway s (newCalls s u) := by
  obtain ⟨hcfg, hA, hwf, hreplay, hlegal, hconsistent⟩ := h.underway
  rw [pendingCalls_idle hf, List.append_nil] at hlegal
  rw [pendingCalls_idle hf, presentAll_nil] at hconsistent
  have hu := exec_eq_complete_presentAll hcfg he
  have hlegal' := (MadeLegalCalls.after_exec ⟨hA, hlegal⟩ he).calls_legal
  have hconsistent' := (BothConsistent.after_exec ⟨hcfg, hconsistent⟩ he).consistent
  refine ⟨hcfg, hA, hwf, hreplay, ?_, fun id => ?_⟩
  · rw [hu] at hlegal'
    simpa using hlegal'
  · have hid := hconsistent' id
    rw [hu] at hid
    cases id <;> exact hid

/-- An accepted word puts its command's calls on their way; a reserved one has none (R69). -/
theorem Inv.underway_of_runWord {s u : State} {w : CmdWord} (h : Inv s) (hf : s.inFlight = none)
    (hr : runWord w s = .next u) :
    Underway s (newCalls s u) ∧ ∃ r, u = awaiting (presentAll s (newCalls s u)) [] r := by
  cases hd : decode w with
  | instr i =>
    rw [runWord_instr hd] at hr
    refine ⟨h.underway_of_exec hf hr, responseTo s i, ?_⟩
    rw [awaiting_nil (by simpa using hf)]
    exact exec_eq_complete_presentAll h.cfg_wf hr
  | invalid op =>
    rw [runWord_invalid hd] at hr
    cases hr
    have hcalls : newCalls s (complete s none) = [] := newCalls_of_trace (by simp)
    rw [hcalls]
    exact ⟨pendingCalls_idle hf ▸ h.underway, none, (awaiting_nil hf none).symm⟩

/-- A reset input keeps the invariant: the calls made so far are history, and none is on its way. -/
theorem Inv.after_resetBlock {s : State} (h : Inv s) : Inv (resetBlock s) where
  cfg_wf := h.cfg_wf
  bankA_high := by rw [resetBlock_bankA, BitVec.zero_and]
  dev_wf := reset_dev_wf
  dev_replay := rfl
  calls_legal := by
    have hmade := h.calls_legal
    rw [List.all_append, Bool.and_eq_true] at hmade
    simpa [pendingCalls] using hmade.1
  holds_call := nofun
  consistent id := .inl ⟨rfl, by cases id <;> rfl⟩

end Sys2Proof.Machine
end

section
/-! PROOFS. The invariant of the machine (spec/10_state.md sections 1 and 5). -/

namespace Sys2Proof.Machine

/-- Settles O52: the command taken, whole or in part, the Bus Writer accepting and the reset each leave the calls still to
come on their way. -/
theorem everyStepKeepsTheInvariant : Obligations.EveryStepKeepsTheInvariant := by
  intro s t h hstep
  obtain ⟨-, rfl⟩ | ⟨x, rest, -, hcase⟩ := step_cases hstep
  · exact h
  · have hs := h.with_any_inputs rest
    obtain ⟨w, -, hf, -, hr⟩ | ⟨w, k, u, -, hf, -, hr, rfl⟩ | ⟨n, -, rfl⟩ | ⟨-, rfl⟩ := hcase
    · obtain ⟨hcalls, r, ht⟩ := hs.underway_of_runWord hf hr
      rw [ht]
      exact Underway.inv_awaiting (Underway.after_presentAll (by rwa [List.append_nil])) r
    · obtain ⟨hcalls, -⟩ := hs.underway_of_runWord hf hr
      rw [stallAfter_eq_awaiting]
      exact Underway.inv_awaiting (Underway.after_presentAll (by rwa [List.take_append_drop])) _
    · exact hs.after_advance n
    · exact hs.after_resetBlock

end Sys2Proof.Machine
end

section
/-! PROOF SUPPORT. What the device holds (spec/10_state.md section 5): the calls it received, replayed, and what it held at
power-on where there are none. -/

namespace Sys2Proof.Machine

theorem deviceHolds_append (d : Byte) (a : Nat) (l k : List BusWrite) :
    deviceHolds d a (l ++ k) = deviceHolds (deviceHolds d a l) a k := List.foldl_append

/-- Calls to other addresses leave what the device holds. -/
theorem deviceHolds_of_other {a : Nat} {l : List BusWrite} (h : ∀ c ∈ l, c.addr ≠ a) (d : Byte) :
    deviceHolds d a l = d := by
  induction l with
  | nil => rfl
  | cons c l ih =>
    have htail := ih fun w hw => h w (List.mem_cons_of_mem _ hw)
    rwa [deviceHolds, List.foldl_cons, if_neg (h c (List.mem_cons_self ..))]

/-- The shadow's byte at an address, or what the device held where nothing was sent, is what the device holds. -/
theorem getD_read_replayOn (m : Memory) (a : Nat) (d : Byte) (l : List BusWrite) :
    ((replayOn m l).read a).getD d = deviceHolds ((m.read a).getD d) a l := by
  induction l generalizing m with
  | nil => rfl
  | cons c l ih =>
    refine (ih (m.record c)).trans ?_
    rw [deviceHolds, deviceHolds, List.foldl_cons]
    by_cases hc : c.addr = a
    · rw [if_pos hc, ← hc, Memory.record, Memory.read_write_same, Option.getD_some]
    · rw [if_neg hc, Memory.record, Memory.read_write_other _ _ _ _ (Ne.symm hc)]

/-- A bank whose data register was last sent the bank is what the device holds there (R34). -/
theorem deviceHolds_of_read {s : State} (h : Inv s) {a : Nat} {v : Byte} (hv : s.dev.read a = some v) (initial : Byte) :
    deviceHolds initial a (s.history ++ s.trace) = v := by
  have hreplay := getD_read_replayOn [] a (deviceHolds initial a s.history) s.trace
  rwa [← h.dev_replay, hv, Option.getD_some, Memory.read_nil, Option.getD_none, ← deviceHolds_append, eq_comm] at hreplay

/-- An `INIT` that finds both banks dark makes its configuration calls alone (R124). -/
theorem initCalls_of_dark {s : State} (hA : s.bankA = 0x00#8) (hB : s.bankB = 0x00#8) :
    initCalls s = configCalls s.cfg := by
  have hoff : ∀ id, offCalls s.cfg id 0x00#8 = [] := fun id => offCalls_and_highBits s.cfg id 0x00#8
  rw [initCalls, hA, hB, hoff, hoff, List.append_nil, List.append_nil]

/-- The configuration calls go to no data register (R5). -/
theorem configCalls_addr_ne_dataAddr {c : Config} (hc : c.wellFormed = true) (id : BankId) :
    ∀ w ∈ configCalls c, w.addr ≠ dataAddr c id := fun _ hw => (dataCall_addr_ne hc hw id 0x00#8).symm

/-- In an idle block the machine's invariant is the consistency of each bank. -/
theorem Inv.consistent_of_idle {s : State} (h : Inv s) (hf : s.inFlight = none) (id : BankId) : Consistent s id := by
  rw [← settled_idle hf]
  exact h.consistent id

end Sys2Proof.Machine
end

section
/-! PROOFS. The invariant at reset, and what it says of the device (spec/10_state.md sections 5 and 6,
spec/70_reset_and_hazards.md R157). -/

namespace Sys2Proof.Machine

/-- Settles O51: nothing was sent, nothing is in flight and both banks are zero. -/
theorem resetMeetsTheInvariant : Obligations.ResetMeetsTheInvariant := by
  have hreset : ∀ c : Config, c.wellFormed = true → Inv { State.reset with cfg := c } := fun c hc =>
    { cfg_wf := hc
      bankA_high := BitVec.zero_and
      dev_wf := reset_dev_wf
      dev_replay := rfl
      calls_legal := rfl
      holds_call := nofun
      consistent := fun id => .inl ⟨rfl, by cases id <;> rfl⟩ }
  exact ⟨hreset Config.default (by decide), hreset⟩

/-- Settles O54: a written data register was last sent the bank, and the shadow replays what the device received. -/
theorem deviceHoldsTheBankOnceWritten : Obligations.DeviceHoldsTheBankOnceWritten := by
  intro s id initial h hf hwritten
  obtain ⟨hnone, -⟩ | hsome := h.consistent_of_idle hf id
  · exact absurd hnone hwritten
  · exact deviceHolds_of_read h hsome initial

/-- Settles O55: a non-zero bank was sent, and neither the reset nor `INIT` from the dark banks sends to a data register. -/
theorem initAfterResetDoesNotRepairTheDevice : Obligations.InitAfterResetDoesNotRepairTheDevice := by
  intro s id initial rest h hf hi hbank
  have hsent : s.dev.read (dataAddr s.cfg id) = some (readBank s id) :=
    (h.consistent_of_idle hf id).resolve_left fun ⟨_, hzero⟩ => hbank hzero
  refine ⟨resetBlock { s with inputs := .command (encode .init) :: rest },
    afterInit { resetBlock s with inputs := rest }, ?_, ?_, by cases id <;> exact BitVec.zero_and, ?_⟩
  · rw [step, nextInput_idle hf hi]
  · rw [step_command_idle rfl rfl, runWord_instr (decode_encode rfl)]
    exact exec_init _
  · have hcalls : initCalls { resetBlock s with inputs := rest } = configCalls s.cfg := initCalls_of_dark rfl rfl
    rw [afterInit, afterCommand_history, afterCommand_trace, hcalls]
    refine (deviceHolds_append ..).trans ?_
    rw [resetBlock_history, resetBlock_trace, List.nil_append, deviceHolds_of_read h hsent]
    exact deviceHolds_of_other (configCalls_addr_ne_dataAddr h.cfg_wf id) _

/-- Settles O41: the banks at reset are dark, so `INIT` makes its configuration calls alone. -/
theorem initFromResetLeavesTheDataRegistersUnwritten : Obligations.InitFromResetLeavesTheDataRegistersUnwritten := by
  intro c hc
  have hcalls : initCalls { State.reset with cfg := c } = configCalls c := initCalls_of_dark rfl rfl
  refine ⟨_, exec_init _, ?_, BitVec.zero_and, BitVec.zero_and, fun id => ?_⟩
  · rw [afterInit, afterCommand_trace, hcalls]
    rfl
  · rw [afterInit, afterCommand_dev, hcalls]
    exact replayOn_read_other _ (configCalls_addr_ne_dataAddr hc id)

end Sys2Proof.Machine
end

section
/-! PROOF SUPPORT. What a step is, input by input (spec/30_encoding.md R60, spec/20_memory.md R55), and a command the Bus
Writer stalls (spec/70_reset_and_hazards.md R158). -/

namespace Sys2Proof.Machine

/-! ### The input a step takes -/

/-- An event is taken from the head of the inputs, or by a busy block from behind the waiting commands. -/
theorem nextInput_event {s : State} {waiting rest : List Input} {x : Input} (hi : s.inputs = waiting ++ x :: rest)
    (hw : ∀ y ∈ waiting, y.isCommand = true) (hx : x.isCommand = false) (hfree : waiting = [] ∨ s.inFlight ≠ none) :
    nextInput s = some (x, { s with inputs := waiting ++ rest }) := by
  obtain hf | ⟨f, hf⟩ := Option.eq_none_or_eq_some s.inFlight
  · obtain rfl := hfree.resolve_right (not_not.mpr hf)
    exact nextInput_idle hf hi
  · rw [nextInput_busy hf, hi, takeEvent_behind hw hx, Option.map_some]

/-- A reset input (R150, R153). -/
theorem step_reset {s : State} {waiting rest : List Input} (hi : s.inputs = waiting ++ .reset :: rest)
    (hw : ∀ y ∈ waiting, y.isCommand = true) (hfree : waiting = [] ∨ s.inFlight ≠ none) :
    step s = .next (resetBlock { s with inputs := waiting ++ rest }) := by
  rw [step, nextInput_event hi hw rfl hfree]

/-- The Bus Writer accepting `n` calls (R55). -/
theorem step_busReady {s : State} {n : Nat} {waiting rest : List Input} (hi : s.inputs = waiting ++ .busReady n :: rest)
    (hw : ∀ y ∈ waiting, y.isCommand = true) (hfree : waiting = [] ∨ s.inFlight ≠ none) :
    step s = .next (advance n { s with inputs := waiting ++ rest }) := by
  rw [step, nextInput_event hi hw rfl hfree]

/-- A command word during which the Bus Writer stalls (R158). -/
theorem step_commandStalled {s u : State} {w : CmdWord} {k : Nat} {rest : List Input} (hf : s.inFlight = none)
    (hi : s.inputs = .commandStalled w k :: rest) (hr : runWord w { s with inputs := rest } = .next u) :
    step s = .next (stallAfter k { s with inputs := rest } u) := by
  simp only [step, nextInput_idle hf hi, hr, stalled]

/-! ### A stalled command -/

@[simp] theorem stallAfter_trace (k : Nat) (s u : State) :
    (stallAfter k s u).trace = s.trace ++ (newCalls s u).take k := by simp [stallAfter_eq_awaiting]

@[simp] theorem stallAfter_history (k : Nat) (s u : State) : (stallAfter k s u).history = s.history := by
  simp [stallAfter_eq_awaiting]

@[simp] theorem stallAfter_inputs (k : Nat) (s u : State) : (stallAfter k s u).inputs = s.inputs := by
  simp [stallAfter_eq_awaiting]

/-- The block holds the first call the Bus Writer has not accepted (R55). -/
theorem heldCall_stallAfter (k : Nat) (s u : State) : heldCall (stallAfter k s u) = (newCalls s u)[k]? := by
  rw [stallAfter_eq_awaiting, ← List.head?_drop]
  cases (newCalls s u).drop k <;> rfl

/-- With a call left the command is in flight. -/
theorem stallAfter_inFlight_of_lt {k : Nat} {s u : State} (h : k < (newCalls s u).length) :
    (stallAfter k s u).inFlight ≠ none := by
  rw [stallAfter_eq_awaiting, List.drop_eq_getElem_cons h]
  nofun

/-- With a call left the command has not completed (R73). -/
theorem stallAfter_responses_of_lt {k : Nat} {s u : State} (h : k < (newCalls s u).length) :
    (stallAfter k s u).responses = s.responses := by
  rw [stallAfter_eq_awaiting, List.drop_eq_getElem_cons h]
  simp [awaiting]

/-- Accepting `n` more calls is accepting `k + n` at once. -/
theorem advance_stallAfter (n k : Nat) (s u : State) : advance n (stallAfter k s u) = stallAfter (k + n) s u := by
  rw [stallAfter_eq_awaiting, stallAfter_eq_awaiting, advance_awaiting, ← presentAll_append, ← List.take_add,
    List.drop_drop]

/-- A command reads no input (R26). -/
theorem with_inputs_respectsOps (x : List Input) : RespectsOps (fun s t => t = { s with inputs := x }) where
  cfg_eq h := by rw [h]
  bank_eq h id := by
    subst h
    cases id <;> rfl
  after_writeBank h id v := by
    subst h
    cases id <;> rfl
  after_busWrite h r d := by
    subst h
    rfl
  after_complete h r := by
    subst h
    rfl

theorem exec_with_inputs {s u : State} {i : Instr} (h : exec i s = .next u) (x : List Input) :
    exec i { s with inputs := x } = .next { u with inputs := x } := by
  obtain ⟨v, hv, rfl⟩ := (with_inputs_respectsOps x).exec_next (x := s) rfl h
  exact hv

/-- The stall of a command whose meaning is known for some inputs. -/
theorem step_commandStalled_instr {s u : State} {w : CmdWord} {i : Instr} {k : Nat} {x rest : List Input}
    (hf : s.inFlight = none) (hi : s.inputs = .commandStalled w k :: rest) (hd : decode w = .instr i)
    (he : exec i { s with inputs := x } = .next u) : step s = .next (stallAfter k { s with inputs := rest } u) :=
  step_commandStalled (u := { u with inputs := rest }) hf hi ((runWord_instr hd _).trans (exec_with_inputs he rest))

/-- The Bus Writer accepting `n` more calls of a stalled command, while `waiting` commands wait. -/
theorem step_stallAfter_busReady {s u : State} {k n : Nat} {waiting rest : List Input}
    (hi : s.inputs = waiting ++ .busReady n :: rest) (hw : ∀ y ∈ waiting, y.isCommand = true)
    (hfree : waiting = [] ∨ k < (newCalls s u).length) :
    step (stallAfter k s u) = .next (stallAfter (k + n) { s with inputs := waiting ++ rest } u) := by
  have hstall : { stallAfter k s u with inputs := waiting ++ rest } =
      stallAfter k { s with inputs := waiting ++ rest } u :=
    (advance_with_inputs k _ _).symm
  rw [step_busReady ((stallAfter_inputs k s u).trans hi) hw (hfree.imp_right stallAfter_inFlight_of_lt), hstall,
    advance_stallAfter]

/-- Once the Bus Writer has accepted every call, the state is that of the command without a stall. -/
theorem awaiting_nil_of_exec {s u : State} {i : Instr} (hc : s.cfg.wellFormed = true) (hf : s.inFlight = none)
    (h : exec i s = .next u) :
    awaiting (presentAll s (newCalls s u)) [] ((u.responses.drop s.responses.length).headD none) = u := by
  rw [exec_responses h, List.drop_left, List.headD_cons, awaiting_nil (by simpa using hf)]
  exact (exec_eq_complete_presentAll hc h).symm

theorem stallAfter_of_length_le {s u : State} {i : Instr} {k : Nat} (hc : s.cfg.wellFormed = true)
    (hf : s.inFlight = none) (h : exec i s = .next u) (hk : (newCalls s u).length ≤ k) : stallAfter k s u = u := by
  rw [stallAfter_eq_awaiting, List.take_of_length_le hk, List.drop_eq_nil_of_le hk, awaiting_nil_of_exec hc hf h]

theorem settled_stallAfter {s u : State} {i : Instr} (k : Nat) (hc : s.cfg.wellFormed = true) (hf : s.inFlight = none)
    (h : exec i s = .next u) : settled (stallAfter k s u) = u := by
  rw [stallAfter_eq_awaiting, settled_awaiting, ← presentAll_append, List.take_append_drop, awaiting_nil_of_exec hc hf h]

end Sys2Proof.Machine
end

section
/-! PROOFS. The ports: reset, waiting, stalls (spec/20_memory.md section 5, spec/30_encoding.md section 1,
spec/70_reset_and_hazards.md sections 1 and 3). -/

namespace Sys2Proof.Machine

/-- Settles O3: with a call left the stalled command holds the port and has not completed, and the reset drops what it
holds. -/
theorem resetDuringACommandAbandonsIt : Obligations.ResetDuringACommandAbandonsIt := by
  intro s u w i k waiting rest hf hi hw hd he hk
  have hfirst := step_commandStalled hf hi ((runWord_instr hd _).trans he)
  refine ⟨_, _, hfirst, step_reset (stallAfter_inputs ..) hw (.inr (stallAfter_inFlight_of_lt hk)),
    stallAfter_responses_of_lt hk, stallAfter_trace .., rfl, rfl, rfl, rfl, rfl, rfl, ?_, rfl⟩
  rw [resetBlock_history, stallAfter_history, stallAfter_trace, ← List.append_assoc]
  rfl

/-- Settles O53: the Bus Writer accepting again makes it as if all calls had been accepted at once. -/
theorem stalledCommandEndsAsTheUnstalledOne : Obligations.StalledCommandEndsAsTheUnstalledOne := by
  intro s u w i k n rest hc hf hi hd he hn
  refine ⟨_, step_commandStalled_instr hf hi hd he, ?_, stallAfter_trace ..,
    fun hk => ⟨heldCall_stallAfter .., stallAfter_responses_of_lt hk⟩⟩
  rw [step_stallAfter_busReady (waiting := []) rfl nofun (.inl rfl)]
  exact congrArg _ (stallAfter_of_length_le hc hf he hn)

/-- Settles O57: a stalled command after `k` and `n` calls is the command stalled after `k + n`; a reserved word has no call
to stall. -/
theorem stalledCommandAdvancesCallByCall : Obligations.StalledCommandAdvancesCallByCall := by
  constructor
  · intro s u w i k n waiting rest hf hi hw hd he hkn
    refine ⟨_, _, step_commandStalled_instr hf hi hd he, step_stallAfter_busReady rfl hw (.inr ?_), stallAfter_trace ..,
      heldCall_stallAfter .., stallAfter_responses_of_lt hkn, stallAfter_inputs ..,
      fun hc => settled_stallAfter _ hc hf he⟩
    exact (Nat.le_add_right k n).trans_lt hkn
  · intro s w op k rest hf hi hd
    have hcalls : newCalls { s with inputs := rest } (complete { s with inputs := rest } none) = [] :=
      newCalls_of_trace (by simp)
    rw [step_commandStalled hf hi (runWord_invalid hd _), stallAfter_eq_awaiting, hcalls]
    simp [awaiting, hf]

/-- Settles O2: the reset is taken, and `resetBlock` gives the state field by field. -/
theorem resetInputZeroesTheBanksAndSendsNothing : Obligations.ResetInputZeroesTheBanksAndSendsNothing :=
  fun _ _ _ hi hw hfree => ⟨_, step_reset hi hw hfree, rfl, rfl, rfl, rfl, rfl, rfl, rfl, rfl⟩

/-- Settles O5: there is no input, or no event among the waiting commands, or the first event is the Bus Writer's. -/
theorem blockWaitsWithoutInputAndWhileBusy : Obligations.BlockWaitsWithoutInputAndWhileBusy := by
  refine ⟨fun s hi => ?_, fun s hf hw => ?_, fun s n waiting rest hf hi hw => step_busReady hi hw (.inr hf)⟩
  · have hnone : nextInput s = none := by simp [nextInput, hi, takeEvent]
    rw [step, hnone]
  · obtain ⟨f, hf⟩ := Option.ne_none_iff_exists'.mp hf
    rw [step, nextInput_busy hf, takeEvent_none hw, Option.map_none]

/-- Settles O6: the idle block takes the word, and the word runs its command. -/
theorem stepRunsTheDecodedCommand : Obligations.StepRunsTheDecodedCommand :=
  fun s _ _ rest hf hi hd => (step_command_idle hf hi).trans (runWord_instr hd { s with inputs := rest })

end Sys2Proof.Machine
end

section
/-! PROOF SUPPORT. The closed forms of the bulk operations (spec/42_bulk_ops.md R101, R102, R108, R112): driving the LEDs of
one bank in ascending order lays the wanted bits over the bank, one position a turn. -/

namespace Sys2Proof.Machine

/-! ### Wanted bits over a bank -/

/-- A bank that holds `v` once its bits below `n` are those of `want`. -/
def overlay (want v : Byte) (n : Nat) : Byte := (want &&& low n) ||| (v &&& ~~~low n)

theorem getLsbD_overlay {q : Nat} (hq : q < 8) (want v : Byte) (n : Nat) :
    (overlay want v n).getLsbD q = if q < n then want.getLsbD q else v.getLsbD q := by
  rw [overlay, BitVec.getLsbD_or, BitVec.getLsbD_and, getLsbD_and_not hq, getLsbD_low hq]
  by_cases hn : q < n <;> simp [hn]

theorem overlay_zero (want v : Byte) : overlay want v 0 = v :=
  BitVec.eq_of_getLsbD_eq fun q hq => (getLsbD_overlay hq want v 0).trans (if_neg (Nat.not_lt_zero q))

/-- One more position takes its wanted bit. -/
theorem getLsbD_overlay_succ {q : Nat} (hq : q < 8) (want v : Byte) (n : Nat) :
    (overlay want v (n + 1)).getLsbD q = if q = n then want.getLsbD n else (overlay want v n).getLsbD q := by
  rw [getLsbD_overlay hq, getLsbD_overlay hq]
  by_cases hqn : q = n
  · subst hqn
    rw [if_pos rfl, if_pos (Nat.lt_succ_self q)]
  · have hlt : q < n + 1 ↔ q < n := by omega
    simp only [hqn, hlt, if_false]

/-- The next wanted bit is set. -/
theorem overlay_succ_of_set {want : Byte} {n : Nat} (h : want.getLsbD n = true) (v : Byte) :
    overlay want v n ||| mask n = overlay want v (n + 1) := by
  refine BitVec.eq_of_getLsbD_eq fun q hq => ?_
  rw [BitVec.getLsbD_or, getLsbD_mask hq, getLsbD_overlay_succ hq, h]
  by_cases hqn : q = n <;> simp [hqn]

/-- The next wanted bit is clear. -/
theorem overlay_succ_of_clear {want : Byte} {n : Nat} (h : want.getLsbD n = false) (v : Byte) :
    overlay want v n &&& ~~~mask n = overlay want v (n + 1) := by
  refine BitVec.eq_of_getLsbD_eq fun q hq => ?_
  rw [getLsbD_and_not hq, getLsbD_mask hq, getLsbD_overlay_succ hq, h]
  by_cases hqn : q = n <;> simp [hqn]

/-- All bits wanted. -/
theorem overlay_allOnes (v : Byte) (n : Nat) : overlay (BitVec.allOnes 8) v n = v ||| low n := by
  refine BitVec.eq_of_getLsbD_eq fun q hq => ?_
  rw [getLsbD_overlay hq, BitVec.getLsbD_or, getLsbD_low hq, BitVec.getLsbD_allOnes]
  by_cases hn : q < n <;> simp [hn, hq]

/-- All six LED bits laid over a bank keep the two others. -/
theorem overlay_six {want : Byte} (h : want &&& low 6 = want) (v : Byte) :
    overlay want v 6 = (v &&& highBits) ||| want := by
  rw [overlay, h, and_not_low_six, BitVec.or_comm]

/-! ### One turn, and the run of one bank -/

/-- The calls of the first `n` positions of `PATTERN` to one bank that holds `v`; `patternCalls` are those of all six. -/
def patternCallsBelow (c : Config) (id : BankId) (want v : Byte) (n : Nat) : List BusWrite :=
  (List.range n).flatMap (fun p =>
    if want.getLsbD p || v.getLsbD p then [dataCall c id (overlay want v (p + 1))] else [])

theorem patternCallsBelow_six (c : Config) (id : BankId) (want v : Byte) :
    patternCallsBelow c id want v 6 = patternCalls c id want v := rfl

theorem patternCallsBelow_succ (c : Config) (id : BankId) (want v : Byte) (n : Nat) :
    patternCallsBelow c id want v (n + 1) = patternCallsBelow c id want v n ++
      if want.getLsbD n || v.getLsbD n then [dataCall c id (overlay want v (n + 1))] else [] := by
  simp [patternCallsBelow, List.range_succ]

/-- All bits wanted: every position sends (R93). -/
theorem patternCallsBelow_allOnes (c : Config) (id : BankId) (v : Byte) {n : Nat} (hn : n ≤ 8) :
    patternCallsBelow c id (BitVec.allOnes 8) v n = onCalls c id v n := by
  rw [patternCallsBelow, onCalls, List.map_eq_flatMap]
  refine List.flatMap_congr fun p hp => ?_
  have hp8 : p < 8 := (List.mem_range.mp hp).trans_le hn
  rw [BitVec.getLsbD_allOnes, decide_eq_true hp8, Bool.true_or, if_pos rfl, overlay_allOnes]

/-- The ON path: the bank's new byte is always sent (R93). -/
theorem setLed_on_eq_transferAll {s : State} {i : Nat} (h : acceptsIndex s.cfg.idxHigh i = true) :
    setLed s i .on = transferAll (writeBank s (ledBank i) (readBank s (ledBank i) ||| mask (ledPos i)))
      [dataCall s.cfg (ledBank i) (readBank s (ledBank i) ||| mask (ledPos i))] := by
  rw [setLed_on h, busWrite, writeBank_cfg]
  rfl

/-- The turn of position `p`, on a bank over which the bits below `p` are laid already. -/
theorem setLed_overlay {s : State} {id : BankId} {want v : Byte} {p : Nat} {st : LedState} (hp : p < 6)
    (hst : want.getLsbD p = decide (st = .on)) (hread : readBank s id = overlay want v p) :
    setLed s (firstLed id + p) st =
      transferAll (writeBank s id (overlay want v (p + 1)))
        (if want.getLsbD p || v.getLsbD p then [dataCall s.cfg id (overlay want v (p + 1))] else []) := by
  have hacc := acceptsIndex_firstLed_add id hp s.cfg.idxHigh
  cases st with
  | on =>
    rw [setLed_on_eq_transferAll hacc, ledBank_firstLed_add id hp, ledPos_firstLed_add id hp, hread,
      overlay_succ_of_set hst, hst, decide_eq_true rfl, Bool.true_or, if_pos rfl]
  | off =>
    have hbit : (overlay want v p).getLsbD p = v.getLsbD p :=
      (getLsbD_overlay (by omega) want v p).trans (if_neg (Nat.lt_irrefl p))
    have hclear : want.getLsbD p = false := hst
    rw [setLed_off_eq_transferAll hacc, ledBank_firstLed_add id hp, ledPos_firstLed_add id hp, hread, hbit,
      overlay_succ_of_clear hclear, hclear, Bool.false_or]

/-- Driving the first `n` LEDs of a bank to the bits of `want`. -/
theorem driveLeds_bank (s : State) (id : BankId) {want : Byte} {states : Nat → LedState} {n : Nat} (hn : n ≤ 6)
    (hstates : ∀ p < n, want.getLsbD p = decide (states (firstLed id + p) = .on)) :
    driveLeds (firstLed id) n states s =
      transferAll (writeBank s id (overlay want (readBank s id) n))
        (patternCallsBelow s.cfg id want (readBank s id) n) := by
  induction n with
  | zero =>
    rw [overlay_zero, writeBank_readBank]
    rfl
  | succ n ih =>
    have hprev := ih (by omega) fun p hp => hstates p (by omega)
    have hread : readBank (driveLeds (firstLed id) n states s) id = overlay want (readBank s id) n := by
      rw [hprev, readBank_transferAll, readBank_writeBank_same]
    rw [driveLeds_succ_last, setLed_overlay hn (hstates n (Nat.lt_succ_self n)) hread, hprev, writeBank_transferAll,
      writeBank_writeBank_same, transferAll_cfg, writeBank_cfg, ← transferAll_append, patternCallsBelow_succ]

/-! ### Both banks -/

/-- The first `n` LEDs of Bank A and then the first `m` of Bank B. -/
theorem driveLeds_banks (s : State) {wantA wantB : Byte} {states : Nat → LedState} {n m : Nat} (hn : n ≤ 6) (hm : m ≤ 6)
    (hA : ∀ p < n, wantA.getLsbD p = decide (states (1 + p) = .on))
    (hB : ∀ p < m, wantB.getLsbD p = decide (states (7 + p) = .on)) :
    driveLeds 7 m states (driveLeds 1 n states s) =
      transferAll (writeBank (writeBank s .a (overlay wantA s.bankA n)) .b (overlay wantB s.bankB m))
        (patternCallsBelow s.cfg .a wantA s.bankA n ++ patternCallsBelow s.cfg .b wantB s.bankB m) := by
  have hbankA := driveLeds_bank s .a hn hA
  have hbankB := driveLeds_bank (driveLeds 1 n states s) .b hm hB
  simp only [firstLed] at hbankA hbankB
  rw [hbankB, hbankA]
  simp only [writeBank_transferAll, transferAll_cfg, writeBank_cfg, transferAll_append, readBank_a, readBank_b,
    transferAll_bankB, writeBank_a_bankB]

/-- Switching on the first `n` LEDs of Bank A and then the first `m` of Bank B (R101, R108). -/
theorem driveLeds_on_banks (s : State) {n m : Nat} (hn : n ≤ 6) (hm : m ≤ 6) :
    driveLeds 7 m (fun _ => .on) (driveLeds 1 n (fun _ => .on) s) =
      transferAll (writeBank (writeBank s .a (s.bankA ||| low n)) .b (s.bankB ||| low m))
        (onCalls s.cfg .a s.bankA n ++ onCalls s.cfg .b s.bankB m) := by
  have hall : ∀ k ≤ 6, ∀ p < k, (BitVec.allOnes 8).getLsbD p = decide (LedState.on = .on) := fun k hk p hp => by
    rw [BitVec.getLsbD_allOnes, decide_eq_true rfl, decide_eq_true (by omega)]
  rw [driveLeds_banks s hn hm (hall n hn) (hall m hm), overlay_allOnes, overlay_allOnes,
    patternCallsBelow_allOnes _ _ _ (by omega), patternCallsBelow_allOnes _ _ _ (by omega)]

/-- A run of LEDs is a shorter one and the rest. -/
theorem driveLeds_add (first n m : Nat) (states : Nat → LedState) (s : State) :
    driveLeds first (n + m) states s = driveLeds (first + n) m states (driveLeds first n states s) := by
  rw [driveLeds, forRange, ← List.range'_append_1, List.foldl_append]
  rfl

/-- The bar fills Bank A before Bank B (R108). -/
theorem lightBar_eq_driveLeds_banks (s : State) (n : Nat) :
    lightBar s n = driveLeds 7 (n - 6) (fun _ => .on) (driveLeds 1 (min n 6) (fun _ => .on) s) := by
  rw [lightBar_eq_driveLeds]
  obtain hn | hn := Nat.le_total n 6
  · rw [Nat.min_eq_left hn, Nat.sub_eq_zero_of_le hn]
    rfl
  · rw [Nat.min_eq_right hn]
    conv_lhs => rw [← Nat.add_sub_of_le hn, driveLeds_add]

/-! ### The number of calls -/

/-- One call for each position that sends. -/
theorem length_flatMap_ite {α β : Type} (l : List α) (sends : α → Bool) (call : α → β) :
    (l.flatMap (fun p => if sends p then [call p] else [])).length = l.countP sends := by
  induction l with
  | nil => rfl
  | cons p l ih => cases hp : sends p <;> simp [hp, ih]

/-- Positions that satisfy one condition, and those that satisfy only the other. -/
theorem countP_or {α : Type} (l : List α) (f g : α → Bool) :
    l.countP (fun p => f p || g p) = l.countP f + l.countP (fun p => !f p && g p) := by
  induction l with
  | nil => rfl
  | cons p l ih => cases hf : f p <;> cases hg : g p <;> simp [hf, hg, ih] <;> omega

theorem length_offCalls (c : Config) (id : BankId) (v : Byte) :
    (offCalls c id v).length = (List.range 6).countP (v.getLsbD ·) := length_flatMap_ite _ _ _

theorem length_onCalls (c : Config) (id : BankId) (v : Byte) (n : Nat) : (onCalls c id v n).length = n := by
  rw [onCalls, List.length_map, List.length_range]

theorem length_patternCalls (c : Config) (id : BankId) (want v : Byte) :
    (patternCalls c id want v).length = (List.range 6).countP (fun p => want.getLsbD p || v.getLsbD p) :=
  length_flatMap_ite _ _ _

/-- The positions below `n` alone are counted. -/
theorem countP_range_congr {n : Nat} {f g : Nat → Bool} (h : ∀ p < n, f p = g p) :
    (List.range n).countP f = (List.range n).countP g :=
  List.countP_congr fun p hp => by rw [h p (List.mem_range.mp hp)]

/-- The calls of one bank: the wanted bits, and the lit ones that are not wanted. -/
theorem length_patternCalls_of_bits {c : Config} {id : BankId} {want v : Byte} {bit : Nat → Bool}
    (h : ∀ p < 6, want.getLsbD p = bit p) :
    (patternCalls c id want v).length =
      (List.range 6).countP bit + (List.range 6).countP (fun p => !bit p && v.getLsbD p) := by
  rw [length_patternCalls, ← countP_or]
  exact countP_range_congr fun p hp => by rw [h p hp]

theorem length_patternCalls_le (c : Config) (id : BankId) (want v : Byte) : (patternCalls c id want v).length ≤ 6 := by
  rw [length_patternCalls]
  exact List.countP_le_length.trans_eq (List.length_range ..)

/-- The lit LEDs of one bank (R167). -/
theorem popcount_and_ledBits (v : Byte) : popcount (v &&& ledBits) = (List.range 6).countP (v.getLsbD ·) := by
  have hsplit : List.range 8 = List.range 6 ++ [6, 7] := rfl
  have hlow : ∀ p < 6, ledBits.getLsbD p = true := by decide
  have hhigh : [6, 7].countP (fun p => (v &&& ledBits).getLsbD p) = 0 := by simp [ledBits]
  rw [popcount, hsplit, List.countP_append, hhigh, Nat.add_zero]
  exact countP_range_congr fun p hp => by rw [BitVec.getLsbD_and, hlow p hp, Bool.and_true]

/-- `SETALL OFF` makes one call for each lit LED (R102). -/
theorem length_offCalls_banks (s : State) :
    (offCalls s.cfg .a s.bankA ++ offCalls s.cfg .b s.bankB).length = litLeds s := by
  rw [List.length_append, length_offCalls, length_offCalls, litLeds, ← popcount_and_ledBits, ← popcount_and_ledBits]
  rfl

/-! ### Pixels -/

theorem getLsbD_pixelsA (pixels : BitVec 12) {q : Nat} (hq : q < 8) :
    (pixelsA pixels).getLsbD q = (decide (q < 6) && pixels.getLsbD q) := by
  simp [pixelsA, hq]

theorem getLsbD_pixelsB (pixels : BitVec 12) {q : Nat} (hq : q < 8) :
    (pixelsB pixels).getLsbD q = (decide (q < 6) && pixels.getLsbD (6 + q)) := by
  simp [pixelsB, hq]

theorem getLsbD_pixelsA_of_lt (pixels : BitVec 12) {p : Nat} (hp : p < 6) :
    (pixelsA pixels).getLsbD p = pixels.getLsbD p := by
  rw [getLsbD_pixelsA pixels (by omega), decide_eq_true hp, Bool.true_and]

theorem getLsbD_pixelsB_of_lt (pixels : BitVec 12) {p : Nat} (hp : p < 6) :
    (pixelsB pixels).getLsbD p = pixels.getLsbD (6 + p) := by
  rw [getLsbD_pixelsB pixels (by omega), decide_eq_true hp, Bool.true_and]

/-- Bits of the six LED positions alone. -/
theorem and_low_six_eq_self {v : Byte} (h6 : v.getLsbD 6 = false) (h7 : v.getLsbD 7 = false) : v &&& low 6 = v := by
  refine BitVec.eq_of_getLsbD_eq fun q hq => ?_
  rw [BitVec.getLsbD_and, getLsbD_low hq]
  obtain hlow | rfl | rfl : q < 6 ∨ q = 6 ∨ q = 7 := by omega
  · rw [decide_eq_true hlow, Bool.and_true]
  · rw [h6, Bool.false_and]
  · rw [h7, Bool.false_and]

theorem pixelsA_and_low_six (pixels : BitVec 12) : pixelsA pixels &&& low 6 = pixelsA pixels :=
  and_low_six_eq_self (getLsbD_pixelsA pixels (by decide)) (getLsbD_pixelsA pixels (by decide))

theorem pixelsB_and_low_six (pixels : BitVec 12) : pixelsB pixels &&& low 6 = pixelsB pixels :=
  and_low_six_eq_self (getLsbD_pixelsB pixels (by decide)) (getLsbD_pixelsB pixels (by decide))

/-- The set bits of twelve, counted six by six. -/
theorem popcount_twelve (x : BitVec 12) :
    popcount x = (List.range 6).countP (x.getLsbD ·) + (List.range 6).countP (fun p => x.getLsbD (6 + p)) := by
  have hsplit : List.range 12 = List.range 6 ++ (List.range 6).map (6 + ·) := rfl
  rw [popcount, hsplit, List.countP_append, List.countP_map]
  rfl

/-- The twelve LED bits of two banks side by side: first those of Bank A. -/
theorem getLsbD_ledBits_append_low (a b : Byte) {p : Nat} (hp : p < 6) :
    (b.extractLsb' 0 6 ++ a.extractLsb' 0 6 : BitVec 12).getLsbD p = a.getLsbD p :=
  BitVec.getLsbD_append.trans (by simp [hp])

theorem getLsbD_ledBits_append_high (a b : Byte) {p : Nat} (hp : p < 6) :
    (b.extractLsb' 0 6 ++ a.extractLsb' 0 6 : BitVec 12).getLsbD (6 + p) = b.getLsbD p :=
  BitVec.getLsbD_append.trans (by simp [hp])

theorem getLsbD_not_and (x y : BitVec 12) {q : Nat} (hq : q < 12) :
    (~~~x &&& y).getLsbD q = (!x.getLsbD q && y.getLsbD q) := by
  rw [BitVec.getLsbD_and, BitVec.getLsbD_not, decide_eq_true hq, Bool.true_and]

/-- `PATTERN` makes one call for each set pixel, and for each clear one whose LED was lit (R112). -/
theorem length_patternCalls_banks (c : Config) (pixels : BitVec 12) (a b : Byte) :
    (patternCalls c .a (pixelsA pixels) a ++ patternCalls c .b (pixelsB pixels) b).length =
      popcount pixels + popcount (~~~pixels &&& (b.extractLsb' 0 6 ++ a.extractLsb' 0 6 : BitVec 12)) := by
  have hA : ∀ p < 6, (~~~pixels &&& (b.extractLsb' 0 6 ++ a.extractLsb' 0 6 : BitVec 12)).getLsbD p =
      (!pixels.getLsbD p && a.getLsbD p) := fun p hp => by
    rw [getLsbD_not_and pixels _ (by omega), getLsbD_ledBits_append_low a b hp]
  have hB : ∀ p < 6, (~~~pixels &&& (b.extractLsb' 0 6 ++ a.extractLsb' 0 6 : BitVec 12)).getLsbD (6 + p) =
      (!pixels.getLsbD (6 + p) && b.getLsbD p) := fun p hp => by
    rw [getLsbD_not_and pixels _ (by omega), getLsbD_ledBits_append_high a b hp]
  rw [List.length_append, length_patternCalls_of_bits fun p => getLsbD_pixelsA_of_lt pixels,
    length_patternCalls_of_bits fun p => getLsbD_pixelsB_of_lt pixels, popcount_twelve, popcount_twelve,
    countP_range_congr hA, countP_range_congr hB, Nat.add_add_add_comm]

/-- Driving the twelve LEDs to the pixels. -/
theorem showPattern_eq_transferAll (s : State) (pixels : BitVec 12) :
    showPattern s pixels =
      transferAll (writeBank (writeBank s .a ((s.bankA &&& highBits) ||| pixelsA pixels)) .b
          ((s.bankB &&& highBits) ||| pixelsB pixels))
        (patternCalls s.cfg .a (pixelsA pixels) s.bankA ++ patternCalls s.cfg .b (pixelsB pixels) s.bankB) := by
  have hsplit : showPattern s pixels = driveLeds 7 6 (fun i => pixelState pixels (i - 1))
      (driveLeds 1 6 (fun i => pixelState pixels (i - 1)) s) :=
    (showPattern_eq_driveLeds s pixels).trans (driveLeds_add 1 6 6 _ s)
  rw [hsplit, driveLeds_banks (wantA := pixelsA pixels) (wantB := pixelsB pixels) s le_rfl le_rfl ?hA ?hB,
    overlay_six (pixelsA_and_low_six pixels), overlay_six (pixelsB_and_low_six pixels), patternCallsBelow_six, patternCallsBelow_six]
  case hA =>
    intro p hp
    rw [getLsbD_pixelsA_of_lt pixels hp, pixelState_eq_on, Nat.add_sub_cancel_left]
  case hB =>
    intro p hp
    rw [getLsbD_pixelsB_of_lt pixels hp, pixelState_eq_on, Nat.add_comm 7, Nat.add_sub_assoc (by decide), Nat.add_comm p]

end Sys2Proof.Machine
end

section
/-! PROOF SUPPORT. The bulk operations in closed form, and what `SETALL OFF` sends last. -/

namespace Sys2Proof.Machine

theorem low_six : low 6 = ledBits := by decide

/-- `SETALL ON` sets the LED bits of both banks and sends at every turn (R101). -/
theorem exec_setall_on (s : State) :
    exec (.setall .on) s =
      .next (afterCommand s (s.bankA ||| ledBits) (s.bankB ||| ledBits)
        (onCalls s.cfg .a s.bankA 6 ++ onCalls s.cfg .b s.bankB 6) none) := by
  have hsplit : setAll s .on = driveLeds 7 6 (fun _ => .on) (driveLeds 1 6 (fun _ => .on) s) :=
    (setAll_eq_driveLeds s .on).trans (driveLeds_add 1 6 6 _ s)
  rw [exec_setall, hsplit, driveLeds_on_banks s le_rfl le_rfl, complete_transferAll, low_six]

/-- `SETALL OFF` clears the LED bits of both banks and sends for the lit ones (R102). -/
theorem exec_setall_off (s : State) :
    exec (.setall .off) s =
      .next (afterCommand s (s.bankA &&& highBits) (s.bankB &&& highBits)
        (offCalls s.cfg .a s.bankA ++ offCalls s.cfg .b s.bankB) none) := by
  rw [exec_setall, setAll_off_eq, complete_transferAll]

/-- New banks and calls on top of new banks and calls. -/
theorem transferAll_writeBanks_twice (s : State) (a b a' b' : Byte) (l l' : List BusWrite) :
    transferAll (writeBank (writeBank (transferAll (writeBank (writeBank s .a a) .b b) l) .a a') .b b') l' =
      transferAll (writeBank (writeBank s .a a') .b b') (l ++ l') := by
  rw [transferAll_append, writeBank_transferAll, writeBank_transferAll]
  rfl

/-- `BARGRAPH` on a valid range is `SETALL OFF` and the bar from dark (R108). -/
theorem exec_bargraph_valid (s : State) {value max : Nat} (hv : value < 65536) (hm : max < 65536)
    (hguard : barGuard value max = false) :
    exec (.bargraph value max) s =
      .next (afterCommand s
        ((s.bankA &&& highBits) ||| low (min (scale s.cfg.barRound value max) 6))
        ((s.bankB &&& highBits) ||| low (scale s.cfg.barRound value max - 6))
        (offCalls s.cfg .a s.bankA ++ offCalls s.cfg .b s.bankB ++
          onCalls s.cfg .a (s.bankA &&& highBits) (min (scale s.cfg.barRound value max) 6) ++
          onCalls s.cfg .b (s.bankB &&& highBits) (scale s.cfg.barRound value max - 6)) none) := by
  have hbound := scale_le_nLed s.cfg.barRound hguard
  rw [nLed] at hbound
  rw [exec_bargraph s hv hm, barGraph_of_valid s hguard, lightBar_eq_driveLeds_banks,
    driveLeds_on_banks _ (Nat.min_le_right ..) (by omega), setAll_off_eq, transferAll_writeBanks_twice,
    complete_transferAll, List.append_assoc]
  simp [transferAll_eq]

/-- `PATTERN` lays the pixels over the LED bits of both banks (R112). -/
theorem exec_pattern_eq (s : State) (pixels : BitVec 12) :
    exec (.pattern pixels) s =
      .next (afterCommand s ((s.bankA &&& highBits) ||| pixelsA pixels) ((s.bankB &&& highBits) ||| pixelsB pixels)
        (patternCalls s.cfg .a (pixelsA pixels) s.bankA ++ patternCalls s.cfg .b (pixelsB pixels) s.bankB) none) := by
  rw [exec_pattern, showPattern_eq_transferAll, complete_transferAll]

/-- A `BARGRAPH` with a next state has operands that fit their ports (U10). -/
theorem operands_of_exec_bargraph {s t : State} {value max : Nat} (h : exec (.bargraph value max) s = .next t) :
    value < 65536 ∧ max < 65536 := by
  by_contra hwide
  rw [exec, execBargraph, if_neg hwide] at h
  cases h

/-- The calls of a command whose end state is known. -/
theorem newCalls_afterCommand (s : State) (a b : Byte) (l : List BusWrite) (r : Option Byte) :
    newCalls s (afterCommand s a b l r) = l := newCalls_of_trace (afterCommand_trace ..)

/-- `SETLED` makes at most one call (R95). -/
theorem length_newCalls_of_exec_setled {s t : State} {k : Nat} {st : LedState} (h : exec (.setled k st) s = .next t) :
    (newCalls s t).length ≤ 1 := by
  obtain rfl := eq_of_exec_setled h
  rw [newCalls_of_trace (t := complete _ none) (setLed_trace s k st)]
  split <;> simp

/-- `BARGRAPH` makes the calls of `SETALL OFF`, and on a valid range one for each LED of the bar (R108, R167). -/
theorem length_newCalls_of_exec_bargraph {s t : State} {value max : Nat} (h : exec (.bargraph value max) s = .next t) :
    (newCalls s t).length =
      litLeds s + if value > max ∨ max = 0 then 0 else scale s.cfg.barRound value max := by
  obtain ⟨hv, hm⟩ := operands_of_exec_bargraph h
  by_cases hinvalid : value > max ∨ max = 0
  · rw [exec_bargraph s hv hm, barGraph_of_guard s (barGuard_iff.mpr hinvalid), ← exec_setall, exec_setall_off] at h
    cases h
    rw [newCalls_afterCommand, length_offCalls_banks, if_pos hinvalid, Nat.add_zero]
  · rw [exec_bargraph_valid s hv hm (by rwa [Bool.eq_false_iff, ne_eq, barGuard_iff])] at h
    cases h
    rw [newCalls_afterCommand, List.length_append, List.length_append, length_offCalls_banks, length_onCalls,
      length_onCalls, if_neg hinvalid]
    omega

/-! ### The last call to a data register -/

/-- A bank whose last LED is lit is sent dark by the last call of `SETALL OFF` (R102). -/
theorem offCalls_of_last_lit (c : Config) (id : BankId) {v : Byte} (h : v.getLsbD 5 = true) :
    offCalls c id v = offCallsBelow c id v 5 ++ [dataCall c id (v &&& highBits)] := by
  rw [← offCallsBelow_six, offCallsBelow_succ, if_pos h, and_not_low_six]

/-- After a list of calls a register reads as the last one to it said. -/
theorem replayOn_read_of_last (m : Memory) (l k : List BusWrite) {c : BusWrite} (h : ∀ d ∈ k, d.addr ≠ c.addr) :
    (replayOn m (l ++ c :: k)).read c.addr = some c.data := by
  rw [replayOn_append]
  exact (replayOn_read_other (m := (replayOn m l).record c) k h).trans (Memory.read_write_same ..)

/-- Bank B's calls do not go to Bank A's data register (R5). -/
theorem offCalls_b_addr_ne {c : Config} (hc : c.wellFormed = true) (v x : Byte) :
    ∀ d ∈ offCalls c .b v, d.addr ≠ (dataCall c .a x).addr := by
  intro d hd h
  obtain ⟨y, rfl⟩ := exists_dataCall_of_mem_offCalls hd
  exact nomatch (callOf_addr_inj hc).mp h

/-- `SETALL OFF` on banks whose last LEDs are lit leaves both data registers freshly sent and dark (R155). -/
theorem replayOn_offCalls_read {c : Config} (hc : c.wellFormed = true) (m : Memory) {a b : Byte}
    (ha : a.getLsbD 5 = true) (hb : b.getLsbD 5 = true) :
    (replayOn m (offCalls c .a a ++ offCalls c .b b)).read (dataAddr c .a) = some (a &&& highBits) ∧
      (replayOn m (offCalls c .a a ++ offCalls c .b b)).read (dataAddr c .b) = some (b &&& highBits) := by
  constructor
  · rw [offCalls_of_last_lit c .a ha, List.append_assoc]
    exact replayOn_read_of_last m _ _ (offCalls_b_addr_ne hc b _)
  · rw [offCalls_of_last_lit c .b hb, ← List.append_assoc]
    exact replayOn_read_of_last m _ [] nofun

end Sys2Proof.Machine
end

section
/-! PROOFS. The closed forms of the bulk operations and the calls they make (spec/42_bulk_ops.md R101, R102, R108, R112,
spec/70_reset_and_hazards.md R155, R167). -/

namespace Sys2Proof.Machine

/-- Settles O29: all bits wanted, in both banks. -/
theorem setallOnSendsTwelveCalls : Obligations.SetallOnSendsTwelveCalls := exec_setall_on

/-- Settles O30: no bit wanted, and one call for each lit LED. -/
theorem setallOffSendsOneCallForEachLitLed : Obligations.SetallOffSendsOneCallForEachLitLed :=
  fun s => ⟨exec_setall_off s, length_offCalls_banks s⟩

/-- Settles O31: after `SETALL ON` the last LED of each bank is lit, so `SETALL OFF` sends each bank dark last. -/
theorem allOnThenAllOffResendsBothBanks : Obligations.AllOnThenAllOffResendsBothBanks := by
  intro s hc
  have hlit : ∀ v : Byte, (v ||| ledBits).getLsbD 5 = true := fun v => by simp [ledBits]
  have hdark : ∀ v : Byte, (v ||| ledBits) &&& highBits = v &&& highBits := fun v =>
    and_highBits_eq_iff.mpr (by simp [ledBits])
  refine ⟨_, _, exec_setall_on s, exec_setall_off _, fun id => ?_⟩
  obtain ⟨hA, hB⟩ := replayOn_offCalls_read hc
    (replayOn s.dev (onCalls s.cfg .a s.bankA 6 ++ onCalls s.cfg .b s.bankB 6)) (hlit s.bankA) (hlit s.bankB)
  rw [hdark] at hA hB
  simp only [afterCommand_dev, afterCommand_cfg, afterCommand_bankA, afterCommand_bankB]
  cases id with
  | a => exact ⟨hA, hdark s.bankA⟩
  | b => exact ⟨hB, hdark s.bankB⟩

/-- Settles O35: past the guard the bar is drawn from dark. -/
theorem bargraphRedrawsTheBarFromDark : Obligations.BargraphRedrawsTheBarFromDark := by
  intro s value max hv hm hle hne
  refine exec_bargraph_valid s hv hm ?_
  rw [Bool.eq_false_iff, ne_eq, barGuard_iff]
  omega

/-- Settles O38: the pixels wanted, and one call for each that is set or was lit. -/
theorem patternSendsSetPixelsAndLitClearedOnes : Obligations.PatternSendsSetPixelsAndLitClearedOnes :=
  fun s pixels => ⟨exec_pattern_eq s pixels, length_patternCalls_banks s.cfg pixels s.bankA s.bankB⟩

/-- Settles O49: the closed form of each command, with the number of its calls. -/
theorem callCountsOfEachCommand : Obligations.CallCountsOfEachCommand := by
  intro s t i h
  have hoff := length_offCalls_banks s
  cases i with
  | init =>
    rw [exec_init] at h
    cases h
    have hcalls : newCalls s (afterInit s) = initCalls s := newCalls_afterCommand ..
    rw [hcalls, initCalls, List.append_assoc, List.length_append, hoff]
    rfl
  | setled k st => exact length_newCalls_of_exec_setled h
  | setall st =>
    cases st with
    | on =>
      rw [exec_setall_on] at h
      cases h
      rw [newCalls_afterCommand, List.length_append, length_onCalls, length_onCalls]
    | off =>
      rw [exec_setall_off] at h
      cases h
      rwa [newCalls_afterCommand]
  | bargraph value max => exact length_newCalls_of_exec_bargraph h
  | pattern pixels =>
    rw [exec_pattern_eq] at h
    cases h
    rw [newCalls_afterCommand, List.length_append]
    exact Nat.add_le_add (length_patternCalls_le ..) (length_patternCalls_le ..)
  | getbank id =>
    cases h
    exact congrArg List.length (newCalls_of_trace (List.append_nil _).symm)

end Sys2Proof.Machine
end

section
/-! PROOFS. The decoder (spec/30_encoding.md sections 2 and 4, spec/95_test_vectors.md section 2.1), and the steps that
always go on (spec/60_exceptions.md sections 1 and 3). -/

namespace Sys2Proof.Machine

/-- A decoded operand fits its port, being a slice of that width (R68). -/
theorem wellFormed_of_decode {w : CmdWord} {i : Instr} (h : decode w = .instr i) : i.wellFormed = true := by
  unfold decode at h
  split at h <;> cases h
  case h_2 => exact decide_eq_true (BitVec.isLt _)
  case h_4 => exact Bool.and_eq_true_iff.mpr ⟨decide_eq_true (BitVec.isLt _), decide_eq_true (BitVec.isLt _)⟩
  all_goals rfl

/-- Every assigned opcode has a command (R61). -/
theorem exists_decode {w : CmdWord} (h1 : 1 ≤ (cmdOp w).toNat) (h6 : (cmdOp w).toNat ≤ 6) :
    ∃ i, decode w = .instr i := by
  obtain h | h | h | h | h | h | h := opcode_cases (cmdOp w)
  · exact ⟨_, decode_init h⟩
  · exact ⟨_, decode_setled h⟩
  · exact ⟨_, decode_setall h⟩
  · exact ⟨_, decode_bargraph h⟩
  · exact ⟨_, decode_pattern h⟩
  · exact ⟨_, decode_getbank h⟩
  · omega

/-- Settles O8: an opcode is assigned or reserved; a decoded command has the word's opcode and operands that fit. -/
theorem decodeIsTotalAndExact : Obligations.DecodeIsTotalAndExact := by
  intro w
  by_cases hassigned : 1 ≤ (cmdOp w).toNat ∧ (cmdOp w).toNat ≤ 6
  · obtain ⟨h1, h6⟩ := hassigned
    obtain ⟨i, hi⟩ := exists_decode h1 h6
    exact .inl ⟨h1, h6, i, hi, wellFormed_of_decode hi, opcode_of_decode hi⟩
  · have hreserved : (cmdOp w).toNat = 0 ∨ 7 ≤ (cmdOp w).toNat := by omega
    exact .inr ⟨hreserved, decode_reserved hreserved⟩

/-- Settles O12: the nine words, decoded. -/
theorem wordsOfTheSpecDecodeAsWritten : Obligations.WordsOfTheSpecDecodeAsWritten := by
  unfold Obligations.WordsOfTheSpecDecodeAsWritten
  decide

/-- Off the policy `refuse` every word runs: a decoded command has operands that fit. -/
theorem exists_runWord {s : State} (hp : s.cfg.idxHigh ≠ .refuse) (w : CmdWord) : ∃ t, runWord w s = .next t := by
  cases hd : decode w with
  | instr i =>
    rw [runWord_instr hd]
    exact everyCommandCompletes s i (wellFormed_of_decode hd) fun hrefuse => absurd hrefuse hp
  | invalid op => exact ⟨_, runWord_invalid hd s⟩

/-- Settles O43: waiting, the Bus Writer and reset always have a next state, and so has a word off the policy `refuse`. -/
theorem stepsAlwaysGoOn : Obligations.StepsAlwaysGoOn := by
  intro s hp
  cases hn : nextInput s with
  | none => exact ⟨s, by rw [step, hn]⟩
  | some taken =>
    obtain ⟨x, v⟩ := taken
    obtain ⟨rest, rfl, -⟩ := nextInput_cases hn
    cases x with
    | command w =>
      obtain ⟨t, ht⟩ := exists_runWord (s := { s with inputs := rest }) hp w
      exact ⟨t, by simp only [step, hn, ht]⟩
    | commandStalled w k =>
      obtain ⟨t, ht⟩ := exists_runWord (s := { s with inputs := rest }) hp w
      exact ⟨stallAfter k { s with inputs := rest } t, by simp only [step, hn, ht, stalled]⟩
    | busReady n => exact ⟨_, by rw [step, hn]⟩
    | reset => exact ⟨_, by rw [step, hn]⟩

/-- Settles O44: the only operands with a port narrower than their type are those of `SETLED` and `BARGRAPH`, whose
commands check it first. -/
theorem operandsWiderThanTheirPortAreRefused : Obligations.OperandsWiderThanTheirPortAreRefused := by
  intro s i hwf
  cases i with
  | setled index state => exact if_neg (of_decide_eq_false hwf)
  | bargraph value max =>
    rw [Instr.wellFormed, ← Bool.decide_and] at hwf
    exact if_neg (of_decide_eq_false hwf)
  | init => cases hwf
  | setall state => cases hwf
  | pattern pixels => cases hwf
  | getbank id => cases hwf

end Sys2Proof.Machine
end

section
/-! PROOFS. What every command leaves unchanged, and its completion (spec/10_state.md sections 1 and 3, spec/20_memory.md
sections 1 to 3, spec/30_encoding.md section 6). -/

namespace Sys2Proof.Machine

/-! ### The frame -/

/-- From `s` to `t` only banks, completions and calls to the registers `regs` were added. -/
structure SendsOnlyTo (regs : List Reg) (s t : State) : Prop where
  cfg_eq : t.cfg = s.cfg
  history_eq : t.history = s.history
  inputs_eq : t.inputs = s.inputs
  inFlight_eq : t.inFlight = s.inFlight
  sent : ∃ calls, t.trace = s.trace ++ calls ∧ t.dev = replayOn s.dev calls ∧
    ∀ c ∈ calls, ∃ r ∈ regs, ∃ d, c = callOf s.cfg r d

theorem SendsOnlyTo.refl (regs : List Reg) (s : State) : SendsOnlyTo regs s s :=
  ⟨rfl, rfl, rfl, rfl, [], by simp, rfl, nofun⟩

theorem SendsOnlyTo.after_busWrite {regs : List Reg} {s t : State} (h : SendsOnlyTo regs s t) {r : Reg} (hr : r ∈ regs)
    (d : Byte) : SendsOnlyTo regs s (busWrite t r d) := by
  obtain ⟨hcfg, hhistory, hinputs, hinFlight, calls, htrace, hdev, hcalls⟩ := h
  refine ⟨hcfg, hhistory, hinputs, hinFlight, calls ++ [callOf s.cfg r d], by simp [htrace, hcfg], ?_, fun c hc => ?_⟩
  · rw [busWrite_dev, hdev, hcfg, replayOn_append]
    rfl
  · obtain hold | hnew := List.mem_append.mp hc
    · exact hcalls c hold
    · exact ⟨r, hr, d, List.mem_singleton.mp hnew⟩

theorem SendsOnlyTo.after_writeBank {regs : List Reg} {s t : State} (h : SendsOnlyTo regs s t) (id : BankId) (v : Byte) :
    SendsOnlyTo regs s (writeBank t id v) where
  cfg_eq := (writeBank_cfg ..).trans h.cfg_eq
  history_eq := (writeBank_history ..).trans h.history_eq
  inputs_eq := (writeBank_inputs ..).trans h.inputs_eq
  inFlight_eq := (writeBank_inFlight ..).trans h.inFlight_eq
  sent := by
    rw [writeBank_trace, writeBank_dev]
    exact h.sent

theorem SendsOnlyTo.after_complete {regs : List Reg} {s t : State} (h : SendsOnlyTo regs s t) (r : Option Byte) :
    SendsOnlyTo regs s (complete t r) := ⟨h.cfg_eq, h.history_eq, h.inputs_eq, h.inFlight_eq, h.sent⟩

theorem SendsOnlyTo.after_setLed {regs : List Reg} {s t : State} (h : SendsOnlyTo regs s t) {k : Nat}
    (hk : dataReg (ledBank k) ∈ regs) (st : LedState) : SendsOnlyTo regs s (setLed t k st) := by
  obtain e | ⟨-, v, e, -⟩ := setLed_cases t k st
  · rwa [e]
  · rw [e]
    exact (h.after_writeBank _ v).after_busWrite hk v

theorem SendsOnlyTo.after_configureDevice {regs : List Reg} {s t : State} (h : SendsOnlyTo regs s t)
    (hregs : [Reg.dirA, .dirB, .pullupA, .pullupB] ⊆ regs) : SendsOnlyTo regs s (configureDevice t) :=
  (((h.after_busWrite (hregs (by decide)) dirInit).after_busWrite (hregs (by decide)) dirInit).after_busWrite
    (hregs (by decide)) pullupInit).after_busWrite (hregs (by decide)) pullupInit

/-- A command sends only to the registers it stores to: the bulk operations to both data registers, `SETLED` to that of its
own bank, `INIT` also to the configuration registers (R95, R120). -/
theorem exec_sendsOnlyTo {s t : State} {i : Instr} (h : exec i s = .next t) : SendsOnlyTo (storeRegs i) s t := by
  have hled : ∀ {regs}, [Reg.dataA, .dataB] ⊆ regs →
      ∀ u k st, SendsOnlyTo regs s u → SendsOnlyTo regs s (setLed u k st) :=
    fun hregs u k st hu => hu.after_setLed (hregs (by cases ledBank k <;> decide)) st
  cases i with
  | init =>
    cases h
    have hconfig := (SendsOnlyTo.refl (storeRegs .init) s).after_configureDevice (by decide)
    exact (setAll_keeps (hled (by decide)) .off hconfig).after_complete none
  | setled k st =>
    obtain rfl := eq_of_exec_setled h
    exact ((SendsOnlyTo.refl _ s).after_setLed (List.mem_singleton_self _) st).after_complete none
  | setall st =>
    cases h
    exact (setAll_keeps (hled (List.Subset.refl _)) st (SendsOnlyTo.refl _ s)).after_complete none
  | bargraph value max =>
    obtain rfl := eq_of_exec_bargraph h
    exact (barGraph_keeps (hled (List.Subset.refl _)) value max (SendsOnlyTo.refl _ s)).after_complete none
  | pattern pixels =>
    cases h
    exact (showPattern_keeps (hled (List.Subset.refl _)) pixels (SendsOnlyTo.refl _ s)).after_complete none
  | getbank id =>
    cases h
    exact (SendsOnlyTo.refl _ s).after_complete _

/-- Settles O45: the operations of each command send only to its registers, and the shadow changes with the calls alone. -/
theorem frameOfEveryCommand : Obligations.FrameOfEveryCommand := by
  intro s t i h
  obtain ⟨hcfg, hhistory, hinputs, hinFlight, calls, htrace, hdev, hcalls⟩ := exec_sendsOnlyTo h
  rw [newCalls_of_trace htrace]
  refine ⟨hcfg, hhistory, hinputs, hinFlight, htrace, hdev, fun c hc => ?_, fun a ha => ?_, fun id hi => ?_⟩
  · obtain ⟨r, hr, d, rfl⟩ := hcalls c hc
    exact ⟨rfl, List.mem_map_of_mem hr⟩
  · rw [hdev]
    refine replayOn_read_other calls fun c hc => ?_
    obtain ⟨r, hr, d, rfl⟩ := hcalls c hc
    exact (ha r hr).symm
  · subst hi
    cases h
    exact ⟨rfl, rfl⟩

/-! ### The completion -/

/-- Only `GETBANK` responds with data (R73). -/
theorem responseTo_eq_none (s : State) {i : Instr} (h : ∀ id, i ≠ .getbank id) : responseTo s i = none := by
  cases i with
  | getbank id => exact absurd rfl (h id)
  | _ => rfl

/-- Settles O46: the one completion carries `responseTo`. -/
theorem oneCompletionForEachCommand : Obligations.OneCompletionForEachCommand := by
  intro s t i h
  refine ⟨responseTo s i, exec_responses h, fun id hi => by rw [hi, responseTo], fun hne => ?_⟩
  have hnone := responseTo_eq_none s hne
  exact ⟨hnone, by rw [hnone, rspData, Option.getD_none]⟩

/-! ### Bits 7 and 6 of Bank A -/

/-- All LEDs lit and the other two bits clear (R23, C1). -/
theorem or_ledBits_of_highBits_clear {v : Byte} (h : v &&& highBits = 0x00#8) : v ||| ledBits = 0x3F#8 := by
  rw [← low_six, ← overlay_allOnes, overlay, and_not_low_six, h]
  decide

/-- Settles O48: no index reaches the two bits, and the closed form of `SETALL ON` lights the others. -/
theorem bankAHighBitsNeverChange : Obligations.BankAHighBitsNeverChange := by
  refine ⟨fun s t i h => ?_, fun s hA => ?_⟩
  · exact exec_keeps (P := fun u => u.bankA &&& highBits = s.bankA &&& highBits)
      (fun u k st hu => (setLed_bankA_highBits u k st).trans hu) (fun _ hu => hu) (fun _ _ hu => hu) h rfl
  · refine ⟨_, (runAll_cons (exec_setall_on s) _).trans (runAll_cons rfl []), ?_⟩
    rw [complete_responses, afterCommand_responses, readBank_a, afterCommand_bankA, or_ledBits_of_highBits_clear hA,
      List.append_assoc, List.singleton_append]

end Sys2Proof.Machine
end

section
/-! PROOFS. `ClearBit` in one form, sequences of `SETLED`s and the scaler (spec/40_cache_ops.md section 5,
spec/42_bulk_ops.md section 2). -/

namespace Sys2Proof.Machine

/-- Settles O56: the exclusive-OR clears a set bit, and a clear bit needs no clearing. -/
theorem clearBitEqualsAndWithTheComplement : Obligations.ClearBitEqualsAndWithTheComplement := by
  intro s id pos
  cases h : testBit s id pos with
  | true =>
    have hbit : (readBank s id).getLsbD pos = true := by rwa [← testBit_eq_getLsbD]
    rw [clearBit_of_set h, xor_mask_of_set hbit]
    exact ⟨rfl, h.symm⟩
  | false =>
    have hbit : (readBank s id).getLsbD pos = false := by rwa [← testBit_eq_getLsbD]
    rw [clearBit_of_clear h, and_not_mask_of_clear hbit, writeBank_readBank]
    exact ⟨rfl, h.symm⟩

/-- What one `SETLED` shows, for its own LED and for every other (R96). -/
theorem ledLit_setLed (s : State) {i k : Nat} (st : LedState) (hi : 1 ≤ i) (h1 : 1 ≤ k) (h14 : k ≤ 14) :
    ledLit (setLed s i st) k = if i = k then decide (st = .on) else ledLit s k := by
  split
  case isTrue hik =>
    subst hik
    exact ledLit_setLed_same s st h1 h14
  case isFalse hne => exact ledLit_setLed_other s st hi h1 h14 hne

/-- Settles O27, by induction on the list: each `SETLED` has a step, shows its state and leaves the other LEDs. -/
theorem sequencesOfSetledsShowTheLastStateOfEachLed : Obligations.SequencesOfSetledsShowTheLastStateOfEachLed := by
  intro l s hl
  induction l generalizing s with
  | nil => exact ⟨s, rfl, fun _ _ _ => rfl, rfl⟩
  | cons p l ih =>
    obtain ⟨i, st⟩ := p
    obtain ⟨⟨hi1, hi14⟩, htail⟩ := List.forall_mem_cons.mp hl
    obtain ⟨t, hrun, hlit, hA⟩ := ih (complete (setLed s i st) none) htail
    have hstep := exec_setled_accepted (s := s) st (acceptsIndex_of_low hi1 hi14 _)
    refine ⟨t, (runAll_cons hstep _).trans hrun, fun k h1 h14 => ?_, hA.trans (setLed_bankA_highBits s i st)⟩
    rw [hlit k h1 h14, ledLit_complete, ledLit_setLed s st hi1 h1 h14, List.foldl_cons]

/-! ### The scaler (R105 to R107) -/

theorem scale_zero (r : BarRound) {max : Nat} (h : 1 ≤ max) : scale r 0 max = 0 := by
  cases r with
  | floor => rw [scale, Nat.zero_mul, Nat.zero_div]
  | halfUp => rw [scale, Nat.zero_mul, Nat.zero_add, Nat.div_eq_of_lt (by omega)]

theorem scale_max (r : BarRound) {max : Nat} (h : 1 ≤ max) : scale r max max = 12 := by
  cases r with
  | floor => exact Nat.mul_div_cancel_left 12 h
  | halfUp => exact Nat.div_eq_of_lt_le (by simp only [nLed]; omega) (by simp only [nLed]; omega)

theorem scale_mono (r : BarRound) {v w : Nat} (h : v ≤ w) (max : Nat) : scale r v max ≤ scale r w max := by
  cases r with
  | floor => exact Nat.div_le_div_right (Nat.mul_le_mul_right _ h)
  | halfUp => exact Nat.div_le_div_right (Nat.add_le_add_right (Nat.mul_le_mul_right _ h) _)

/-- Under `floor` the bar has at least `k` LEDs from `k / 12` of the range on. -/
theorem le_scale_floor_iff {value max k : Nat} (h : 1 ≤ max) : k ≤ scale .floor value max ↔ k * max ≤ value * 12 :=
  Nat.le_div_iff_mul_le h

/-- Settles O34: the properties of the scaler's quotient; each threshold of the table for 1023 is the least value whose
twelvefold reaches its multiple. -/
theorem scaleIsBoundedMonotoneAndExactAtItsEnds : Obligations.ScaleIsBoundedMonotoneAndExactAtItsEnds := by
  refine ⟨fun r value max h1 hle => scale_le_nLed r ?_, fun r max h1 => ⟨scale_zero r h1, scale_max r h1⟩,
    fun r v w max _ hvw _ => scale_mono r hvw max, fun value max k h1 _ => le_scale_floor_iff h1,
    fun value max hle hmax => by omega, fun p hp value _ => ?_⟩
  · rw [Bool.eq_false_iff, ne_eq, barGuard_iff]
    omega
  · have hthreshold : ∀ q ∈ [(1, 86), (2, 171), (3, 256), (4, 341), (5, 427), (6, 512), (7, 597), (8, 682), (9, 768),
        (10, 853), (11, 938), (12, 1023)], q.1 * 1023 ≤ q.2 * 12 ∧ q.2 * 12 < q.1 * 1023 + 12 := by decide
    obtain ⟨hreached, hleast⟩ := hthreshold p hp
    rw [le_scale_floor_iff (by decide)]
    omega

end Sys2Proof.Machine
end
